-- ==== Sys2Proof/Word.lean ====
section
/-! DEFINITION. The word types of SEGDISP: the command word, the cell, the segment pattern and the level of a line. -/

namespace Sys2Proof

/-- A command word: every command is one 16-bit word (30_encoding.md R60). -/
abbrev Word := BitVec 16

/-- A frame-buffer cell or a character code, 8 bits (00_scope.md R10 `CELL_W`). -/
abbrev Byte := BitVec 8

/-- A segment pattern, 7 bits (00_scope.md R10 `PAT_W`). -/
abbrev Pattern := BitVec 7

/-- The level of an output line, 1 bit: `true` is 1 (high), `false` is 0 (low) (10_state.md R24). -/
abbrev Level := Bool

end Sys2Proof
end

