-- ==== Sys2Proof/Syntax.lean ====
section
/-! DEFINITION. The commands of SEGDISP as syntax: one constructor per row of spec/opcode_table.json. -/

namespace Sys2Proof

/-- A command the block executes (30_encoding.md R66).  `pos` is the unsigned integer `zext(w[11:8])` of R65, so it is a
natural number with the bound 15 checked by `Instr.wellFormed`; `pat` and `ch` are bit fields and carry their width. -/
inductive Instr where
  /-- `ERASE`, format Z (42_framebuffer_commands.md R121). -/
  | erase
  /-- `SETP pos, pat`, format P (42_framebuffer_commands.md R122). -/
  | setp (pos : Nat) (pat : Pattern)
  /-- `SETC pos, ch`, format C (42_framebuffer_commands.md R123). -/
  | setc (pos : Nat) (ch : Byte)
  /-- `FLUSH`, format Z (43_flush_serial.md R140). -/
  | flush
  deriving DecidableEq, Repr

end Sys2Proof
end

