-- ==== Sys2Proof/WellFormed.lean ====
section
/-! DEFINITION. When a command can be encoded at all, and when its position names a character position. -/

namespace Sys2Proof

/-- A position the 4-bit field `pos` can hold (30_encoding.md R65: an unsigned integer 0..15). -/
def posEncodable (pos : Nat) : Bool := decide (pos ≤ 15)

/-- The command has an encoding (30_encoding.md R62 to R65).  Positions 12..15 are encodable: R68 calls such a word a legal
encoding of an illegal operation. -/
def Instr.wellFormed : Instr → Bool
  | .erase => true
  | .setp pos _ => posEncodable pos
  | .setc pos _ => posEncodable pos
  | .flush => true

/-- The command names a legal operation: its position, if it takes one, is 0..11 (42_framebuffer_commands.md R120). -/
def Instr.legalPosition : Instr → Bool
  | .erase => true
  | .setp pos _ => decide (pos ≤ 11)
  | .setc pos _ => decide (pos ≤ 11)
  | .flush => true

end Sys2Proof
end

