-- ==== Sys2Proof/Decode.lean ====
section
/-! DEFINITION. The decoder, total on all 65536 command words, and the encoder, both from 30_encoding.md R60 to R67. -/

namespace Sys2Proof

/-- The reasons a word spells no command (30_encoding.md R67). -/
inductive Reject where
  /-- `op` is 0x0 or 0x5..0xF. -/
  | illegalOp
  /-- An ERASE or FLUSH word with any of bits 11:0 set. -/
  | operandBitsSet
  /-- A SETP word with bit 7 set. -/
  | patternBit7Set
  deriving DecidableEq, Repr

/-- Field `op`, bits 15:12 (R61). -/
def opField (w : Word) : BitVec 4 := w.extractLsb' 12 4

/-- Field `pos`, bits 11:8, an unsigned integer (R61, R65). -/
def posField (w : Word) : Nat := (w.extractLsb' 8 4).toNat

/-- Field `pat`, bits 6:0 (R63, R65). -/
def patField (w : Word) : Pattern := w.extractLsb' 0 7

/-- Field `ch`, bits 7:0 (R64, R65). -/
def chField (w : Word) : Byte := w.extractLsb' 0 8

/-- Bits 11:0, which format Z requires to be 0 (R62). -/
def zField (w : Word) : BitVec 12 := w.extractLsb' 0 12

/-- The decoder of R66: a command, or the name of the reason the word spells none (R67). -/
def decode (w : Word) : Except Reject Instr :=
  if opField w = 0x1#4 then
    if zField w = 0 then .ok .erase else .error .operandBitsSet
  else if opField w = 0x2#4 then
    if w.getLsbD 7 = false then .ok (.setp (posField w) (patField w)) else .error .patternBit7Set
  else if opField w = 0x3#4 then
    .ok (.setc (posField w) (chField w))
  else if opField w = 0x4#4 then
    if zField w = 0 then .ok .flush else .error .operandBitsSet
  else .error .illegalOp

/-- The word of a well-formed command, field by field as the formats Z, P and C lay it out (R62, R63, R64, R66). -/
def encode : Instr → Word
  | .erase => 0x1#4 ++ 0#12
  | .setp pos pat => 0x2#4 ++ BitVec.ofNat 4 pos ++ 0#1 ++ pat
  | .setc pos ch => 0x3#4 ++ BitVec.ofNat 4 pos ++ ch
  | .flush => 0x4#4 ++ 0#12

/-- One row of the opcode map (R66): a word `w` selects the row when `w & mask = pattern`. -/
structure OpcodeRow where
  mnemonic : String
  pattern : Word
  mask : Word
  deriving DecidableEq, Repr

/-- The opcode map of R66, row by row as spec/opcode_table.json has it. -/
def opcodeTable : List OpcodeRow :=
  [⟨"ERASE", 0x1000, 0xFFFF⟩, ⟨"SETP", 0x2000, 0xF080⟩, ⟨"SETC", 0x3000, 0xF000⟩, ⟨"FLUSH", 0x4000, 0xFFFF⟩]

/-- The row's selection test (R66). -/
def OpcodeRow.selects (r : OpcodeRow) (w : Word) : Bool := w &&& r.mask == r.pattern

/-- The mnemonic a command has in the opcode map. -/
def Instr.mnemonic : Instr → String
  | .erase => "ERASE"
  | .setp _ _ => "SETP"
  | .setc _ _ => "SETC"
  | .flush => "FLUSH"

/-- The 16-bit command word of an opcode-table word of `nbits` bits: every bit from `nbits` up is 0.
SEGDISP stores no program, so no byte order arises (20_memory.md R43). -/
def tableWord (nbits w : Nat) : Word := BitVec.ofNat 16 (w % 2 ^ nbits)

/-- The command the decoder reads from an instruction whose bits are `w`, numbered as spec/opcode_table.json numbers them;
none where the decoder rejects the word. -/
def decodeTableWord (nbits w : Nat) : Option Instr := (decode (tableWord nbits w)).toOption

end Sys2Proof
end

