-- ==== Sys2Proof/Config.lean ====
section
/-! DEFINITION. What an implementation of SEGDISP fixes and the spec leaves open: the open parameters of 00_scope.md R11.
The three parameters whose values the spec does not give are opaque constants, so a theorem holds for every value of them;
the fourth, `HALF_BYTE_ORDER`, is the type below: the machine takes it from State, and State.reset has the spec's decided value. -/

namespace Sys2Proof

/-- The values of the parameter `HALF_BYTE_ORDER` (00_scope.md R11, 20_memory.md R42). -/
inductive HalfByteOrder where
  /-- The highest cell of a half is sent first: the spec's decided value. -/
  | descending
  /-- The lowest cell of a half is sent first: the named alternative. -/
  | ascending
  deriving DecidableEq, Repr

/-- The three output lines of SEGDISP (10_state.md R24). -/
inductive Line where
  /-- CLK, the clock. -/
  | clk
  /-- CE, chip enable and latch, asserted high. -/
  | ce
  /-- DAT, the data. -/
  | dat
  deriving DecidableEq, Repr

/-- `ENC_ROM` (00_scope.md R11, 40_encoder_rom.md R102): the 127 stored entries of the encoder ROM, each a 7-bit value,
otherwise unconstrained.  UNSTATED VALUE, log entry 7. -/
opaque Config.encRom : Fin 127 → Pattern

/-- `FB_INIT` (00_scope.md R11, 10_state.md R33): the frame-buffer contents at reset, one unspecified byte per cell.
UNSTATED VALUE, log entry 5. -/
opaque Config.fbInit : Fin 14 → Byte

/-- `LINES_INIT` (00_scope.md R11, 10_state.md R33): the line levels at reset, one unspecified level per line.
UNSTATED VALUE, log entry 6. -/
opaque Config.linesInit : Line → Level

end Sys2Proof
end

