-- ==== Sys2Proof/Machine/Params.lean ====
section
/-! DEFINITION. The fixed parameters of 00_scope.md R10 and the spec's decided value of `HALF_BYTE_ORDER`. -/

namespace Sys2Proof.Machine

/-- `FALLBACK`: the pattern of the ROM addresses 0x7F..0xFF (R10, 40_encoder_rom.md R103). -/
def fallback : Pattern := 0x5C

/-- `OFFSET`: the mapper's permutation table (R10, 41_segment_mapper.md R110). -/
def offsets : List Nat := [2, 0, 4, 3, 1, 7, 5]

/-- `CTRL_MASK`: keeps bits 7..3 of a control cell (R10, 43_flush_serial.md R141). -/
def ctrlMask : Byte := 0xF8

/-- `CTRL_A`: the control value injected into cell 6 (R10, R141). -/
def ctrlA : Byte := 4

/-- `CTRL_B`: the control value injected into cell 13 (R10, R141). -/
def ctrlB : Byte := 1

/-- `MAX_TEXT`: the bytes of text WRITE keeps (R10, 30_encoding.md R71). -/
def maxText : Nat := 12

/-- The value the spec decides for `HALF_BYTE_ORDER` (R11, 20_memory.md R42, 92_eei_decisions.md D6).  The machine takes the
order from State, so it runs with either value; only State.reset names this one.  UNVERIFIED, unsafe, log entry 8. -/
def decidedHalfByteOrder : HalfByteOrder := .descending

end Sys2Proof.Machine
end

