-- ==== Sys2Proof/Machine/State.lean ====
section
/-! DEFINITION. The state of SEGDISP as plain data, the reasons a step can stop, and the state after reset. -/

namespace Sys2Proof.Machine

/-- The two halves of the frame buffer: A is cells 0..6, B is cells 7..13 (10_state.md R23). -/
inductive Half where
  | a
  | b
  deriving DecidableEq, Repr

/-- The frame buffer: always exactly 14 cells of 8 bits, indices 0..13 (10_state.md R21). -/
abbrev FrameBuffer := Vector Byte 14

/-- The levels last driven on the three output lines (10_state.md R24). -/
structure LineLevels where
  clk : Level
  ce : Level
  dat : Level
  deriving DecidableEq, Repr

/-- A drive event `(L, b)` (10_state.md R28). -/
abbrev Event := Line × Level

/-- The serial controller's hidden position during a FLUSH: half, byte index 0..6 in the order sent, bit index 7 down to 0
(10_state.md R31). -/
structure Sequencer where
  half : Half
  byte : Fin 7
  bit : Fin 8
  deriving DecidableEq, Repr

/-- The state of SEGDISP.  `fb`, `lines`, `status` and `trace` are the architectural state of 10_state.md R20; `sequencer` is
the hidden state of R31, `none` when idle; `halfByteOrder` is the machine's open parameter of 00_scope.md R11; `program` and
`position` are the host's command words and the index of the next one (R27); `resets` are the reset events to come, which no
agent of R4 issues (70_reset_and_hazards.md R220). -/
structure State where
  /-- `fb[0..13]`, the frame-buffer cells. -/
  fb : FrameBuffer
  /-- `line[CLK]`, `line[CE]`, `line[DAT]`. -/
  lines : LineLevels
  /-- The 2-bit status register, field `FAULT` in bits 1:0 (R25). -/
  status : BitVec 2
  /-- The drive events since reset, oldest first (R28). -/
  trace : List Event
  /-- The serial controller's position while a FLUSH runs, `none` when idle (R31). -/
  sequencer : Option Sequencer
  /-- `HALF_BYTE_ORDER`, an argument of the machine that no step changes (00_scope.md R11; log entries 8 and 23). -/
  halfByteOrder : HalfByteOrder
  /-- The command words the host issues, in order (R27). -/
  program : List Word
  /-- The index of the next word of `program` to issue (R27). -/
  position : Nat
  /-- The reset events to come, in order, each given by the number of words the host has issued before it
  (70_reset_and_hazards.md R220: between commands; log entry 4). -/
  resets : List Nat
  deriving DecidableEq, Repr

/-- The reasons the block has no step. -/
inductive Fault where
  /-- A command was issued to a faulted block, which accepts none until reset (60_exceptions.md R205; treatment `stuck` of
  93_implementation_defined.md I7).  Raised by every command, through `whenAccepting`.  Safe: the block does nothing. -/
  | stuck
  deriving DecidableEq, Repr

/-- The reasons the model gives a state or command no meaning. -/
inductive Refusal where
  /-- The instruction has no meaning yet: raised by no arm of this model.  Safe: nothing runs. -/
  | notModelled (mnemonic : String)
  /-- The state holds `status.FAULT = 0b11`, which is reserved and never produced (10_state.md R25; treatment `refuse` of
  93_implementation_defined.md I8).  Raised by every command, through `whenAccepting`.  Safe: no run reaches such a state. -/
  | reservedStatus
  /-- A step would overlap a running FLUSH; the host and the environment have no such move (70_reset_and_hazards.md R224, R220;
  treatment `refuse` of 93_implementation_defined.md I9).  Raised by `whenQuiet`.  Safe: no run reaches such a state. -/
  | flushInProgress
  deriving DecidableEq, Repr

/-- The frame buffer at reset, `FB_INIT` (10_state.md R33). -/
def initialFb : FrameBuffer := Vector.ofFn Config.fbInit

/-- The line levels at reset, `LINES_INIT` (10_state.md R33). -/
def initialLines : LineLevels :=
  ⟨Config.linesInit .clk, Config.linesInit .ce, Config.linesInit .dat⟩

/-- The machine right after reset (10_state.md R33, 70_reset_and_hazards.md R220): no fault, no event, an idle sequencer, the
unspecified `FB_INIT` and `LINES_INIT`, the decided cell order, a host that has not issued anything, and no reset to come. -/
def State.reset : State where
  fb := initialFb
  lines := initialLines
  status := 0b00
  trace := []
  sequencer := none
  halfByteOrder := decidedHalfByteOrder
  program := []
  position := 0
  resets := []

end Sys2Proof.Machine
end

