-- ==== Sys2Proof/Machine/Flags.lean ====
section
/-! DEFINITION. The status register.  SEGDISP has no flags and no condition codes (10_state.md R29); `status.FAULT` is its only
status field (R25). -/

namespace Sys2Proof.Machine

/-- The two faults SEGDISP raises (60_exceptions.md R200). -/
inductive FaultKind where
  | positionRange
  | illegalCommand
  deriving DecidableEq, Repr

/-- The code a fault leaves in `status.FAULT` (R200, 10_state.md R25). -/
def FaultKind.code : FaultKind → BitVec 2
  | .positionRange => 0b01
  | .illegalCommand => 0b10

/-- `status.FAULT` with no fault since reset (R25, R203). -/
def statusNone : BitVec 2 := 0b00

/-- The reserved value of `status.FAULT`, never produced (R25). -/
def statusReserved : BitVec 2 := 0b11

/-- What the host reads from `status` between commands; the read changes nothing (60_exceptions.md R203). -/
def readStatus (s : State) : BitVec 2 := s.status

end Sys2Proof.Machine
end

