-- ==== Sys2Proof/Machine/Operands.lean ====
section
/-! DEFINITION. The operand functions: the cell of a position, the encoder ROM and the segment mapper. -/

namespace Sys2Proof.Machine

/-- `CellOf(pos) = 12 - pos` for the legal positions 0..11; no cell for any other (42_framebuffer_commands.md R120). -/
def cellOf (pos : Nat) : Option (Fin 14) :=
  if h : pos ≤ 11 then some ⟨12 - pos, by omega⟩ else none

/-- `ENC`: one of the 127 stored entries up to address 0x7E, the fallback above it (40_encoder_rom.md R100). -/
def enc (a : Byte) : Pattern :=
  if h : a.toNat ≤ 0x7E then Config.encRom ⟨a.toNat, by omega⟩ else fallback

/-- One round of the mapper's loop: pattern bit `6 - i` sets physical bit `OFFSET[i]` (41_segment_mapper.md R110). -/
def mapRound (p : Pattern) (out : Byte) (iOffset : Nat × Nat) : Byte :=
  if p.getLsbD (6 - iOffset.1) then out ||| (1#8 <<< iOffset.2) else out

/-- `MAP`: the loop over i = 0..6 (R110). -/
def map (p : Pattern) : Byte :=
  (List.zip [0, 1, 2, 3, 4, 5, 6] offsets).foldl (mapRound p) 0

/-- `MAP⁻¹` on the bytes whose bit 6 is 0: pattern bits 6 down to 0 are byte bits 2, 0, 4, 3, 1, 7, 5 (R113). -/
def unmap (b : Byte) : Pattern :=
  BitVec.ofBool (b.getLsbD 2) ++ BitVec.ofBool (b.getLsbD 0) ++ BitVec.ofBool (b.getLsbD 4) ++ BitVec.ofBool (b.getLsbD 3) ++
    BitVec.ofBool (b.getLsbD 1) ++ BitVec.ofBool (b.getLsbD 7) ++ BitVec.ofBool (b.getLsbD 5)

end Sys2Proof.Machine
end

