-- ==== Sys2Proof/Machine/Ops.lean ====
section
/-! DEFINITION. The shared operations: cell accesses, line drives, when a command executes, fault entry, and reset. -/

namespace Sys2Proof.Machine

/-- The outcome type of a step. -/
abbrev Result := Host.Outcome State Fault Refusal

/-- `fb[i]`, also `MemRead(i, 1)`: one whole cell, and no other width exists (00_scope.md R14, 20_memory.md R44). -/
def readCell (s : State) (c : Fin 14) : Byte := s.fb[c.val]

/-- `fb[i] <- v`, also `MemWrite(i, 1, v)` (00_scope.md R14). -/
def writeCell (c : Fin 14) (v : Byte) (s : State) : State := { s with fb := s.fb.set c.val v }

/-- Every cell 0x00 (42_framebuffer_commands.md R121). -/
def blankFb : FrameBuffer := Vector.replicate 14 0

/-- The level of one line. -/
def LineLevels.get (ls : LineLevels) : Line → Level
  | .clk => ls.clk
  | .ce => ls.ce
  | .dat => ls.dat

/-- `line[L] <- b`, the other lines as they are. -/
def LineLevels.put (ls : LineLevels) (l : Line) (b : Level) : LineLevels :=
  match l with
  | .clk => { ls with clk := b }
  | .ce => { ls with ce := b }
  | .dat => { ls with dat := b }

/-- `Drive(L, b)`: set the level and append the event, also when the level does not change (00_scope.md R14,
10_state.md R28). -/
def drive (l : Line) (b : Level) (s : State) : State :=
  { s with lines := s.lines.put l b, trace := s.trace ++ [(l, b)] }

/-- Nothing happens to the block while a FLUSH runs (70_reset_and_hazards.md R224, R220; 10_state.md R31). -/
def whenQuiet (s : State) (r : Result) : Result :=
  if s.sequencer.isSome then .refused .flushInProgress else r

/-- A command executes only when `status.FAULT = 0b00`; issued to a faulted block it has no step (60_exceptions.md R205), and a
state with the reserved value has no meaning (10_state.md R25). -/
def whenAccepting (s : State) (r : Result) : Result :=
  whenQuiet s
    (if s.status = statusNone then r
     else if s.status = statusReserved then .refused .reservedStatus
     else .fault .stuck)

/-- Fault entry, precise: the code goes into `status.FAULT` and nothing else changes (60_exceptions.md R204). -/
def raiseFault (kind : FaultKind) (s : State) : State := { s with status := kind.code }

/-- The reset event, the only way out of a fault (60_exceptions.md R209): the block's state as in 10_state.md R33, no line
driven and no event appended (70_reset_and_hazards.md R220).  The parameter, the host's words and position, and the later resets
are not the block's and stay. -/
def resetBlock (s : State) : State :=
  { s with
    fb := State.reset.fb
    lines := State.reset.lines
    status := State.reset.status
    trace := State.reset.trace
    sequencer := State.reset.sequencer }

/-- A command with a position: `PositionRange` before any write when the position is not 0..11, else the cell's new value
(42_framebuffer_commands.md R120, R122, R123). -/
def storeAtPosition (pos : Nat) (v : Byte) (s : State) : State :=
  match cellOf pos with
  | some c => writeCell c v s
  | none => raiseFault .positionRange s

end Sys2Proof.Machine
end

