-- ==== Sys2Proof/Machine/Serial.lean ====
section
/-! DEFINITION. The serial protocol controller: cell order, control-bit injection and the two bursts of a FLUSH. -/

namespace Sys2Proof.Machine

/-- `Order(h)`: the cells of a half in the order they are sent (20_memory.md R42). -/
def order : HalfByteOrder → Half → Vector (Fin 14) 7
  | .descending, .a => #v[6, 5, 4, 3, 2, 1, 0]
  | .descending, .b => #v[13, 12, 11, 10, 9, 8, 7]
  | .ascending, .a => #v[0, 1, 2, 3, 4, 5, 6]
  | .ascending, .b => #v[7, 8, 9, 10, 11, 12, 13]

/-- The byte indices of a burst, 0 first (10_state.md R31). -/
def byteIndices : List (Fin 7) := [0, 1, 2, 3, 4, 5, 6]

/-- The bit indices of a cell, 7 down to 0 (20_memory.md R41). -/
def bitIndices : List (Fin 8) := [7, 6, 5, 4, 3, 2, 1, 0]

/-- The control value put into a cell: bits 7..3 kept, bits 2..0 replaced (43_flush_serial.md R141). -/
def withControl (ctrl v : Byte) : Byte := (v &&& ctrlMask) ||| ctrl

/-- `Inject()` on the cells: cell 6 gets `CTRL_A`, cell 13 gets `CTRL_B` (R141). -/
def injectFb (fb : FrameBuffer) : FrameBuffer :=
  (fb.set 6 (withControl ctrlA fb[6])).set 13 (withControl ctrlB fb[13])

/-- `Inject()`, in place (R141; log entry 10). -/
def inject (s : State) : State := { s with fb := injectFb s.fb }

/-- The cell bit the sequencer stands at. -/
def bitAt (o : HalfByteOrder) (fb : FrameBuffer) (q : Sequencer) : Level :=
  fb[(order o q.half)[q.byte.val].val].getLsbD q.bit.val

/-- Step 2 for one bit: DAT to the bit's value, then CLK to 1 and to 0 (43_flush_serial.md R144). -/
def sendBit (o : HalfByteOrder) (h : Half) (j : Fin 7) (s : State) (k : Fin 8) : State :=
  let q : Sequencer := ⟨h, j, k⟩
  drive .clk false (drive .clk true (drive .dat (bitAt o s.fb q) { s with sequencer := some q }))

/-- Step 2 for one cell: 8 bits, most significant first (R144). -/
def sendCell (o : HalfByteOrder) (h : Half) (s : State) (j : Fin 7) : State :=
  bitIndices.foldl (sendBit o h j) s

/-- Step 1: CLK to 0, DAT to 0, CE to 1 (43_flush_serial.md R143; log entry 9). -/
def beginBurst (s : State) : State := drive .ce true (drive .dat false (drive .clk false s))

/-- Step 3: DAT to 0, then CE to 0 (43_flush_serial.md R145; log entry 9); the sequencer goes idle. -/
def endBurst (s : State) : State := { drive .ce false (drive .dat false s) with sequencer := none }

/-- `SendHalf(h)`: one burst (R142). -/
def sendHalf (o : HalfByteOrder) (h : Half) (s : State) : State :=
  endBurst (byteIndices.foldl (sendCell o h) (beginBurst s))

/-- FLUSH for a given cell order: inject, send half A, send half B (R140). -/
def flushWith (o : HalfByteOrder) (s : State) : State := sendHalf o .b (sendHalf o .a (inject s))

end Sys2Proof.Machine
end

