-- ==== Sys2Proof/Machine/FlushCommand.lean ====
section
/-! DEFINITION. The meaning of FLUSH (43_flush_serial.md). -/

namespace Sys2Proof.Machine

/-- FLUSH in the cell order the machine is given (R140, 20_memory.md R42, 00_scope.md R11). -/
def execFlush (s : State) : Result := whenAccepting s (.next (flushWith s.halfByteOrder s))

end Sys2Proof.Machine
end

