-- ==== Sys2Proof/Machine/FrameBufferCommands.lean ====
section
/-! DEFINITION. The meanings of ERASE, SETP and SETC (42_framebuffer_commands.md). -/

namespace Sys2Proof.Machine

/-- ERASE: all 14 cells become 0x00 (R121). -/
def execErase (s : State) : Result := whenAccepting s (.next { s with fb := blankFb })

/-- SETP: `fb[12 - pos] <- MAP(pat)`, or `PositionRange` when `pos` is not 0..11 (R122). -/
def execSetp (pos : Nat) (pat : Pattern) (s : State) : Result :=
  whenAccepting s (.next (storeAtPosition pos (map pat) s))

/-- SETC: `fb[12 - pos] <- MAP(ENC(ch))`, or `PositionRange` when `pos` is not 0..11 (R123). -/
def execSetc (pos : Nat) (ch : Byte) (s : State) : Result :=
  whenAccepting s (.next (storeAtPosition pos (map (enc ch)) s))

end Sys2Proof.Machine
end

