-- ==== Sys2Proof/Machine/Dispatch.lean ====
section
/-! DEFINITION. The dispatch: one arm per command, each one direct call of the command's meaning. -/

namespace Sys2Proof.Machine

def exec (i : Instr) (s : State) : Host.Outcome State Fault Refusal :=
  match i with
  | .erase => Sys2Proof.Machine.execErase s
  | .setp pos pat => Sys2Proof.Machine.execSetp pos pat s
  | .setc pos ch => Sys2Proof.Machine.execSetc pos ch s
  | .flush => Sys2Proof.Machine.execFlush s

end Sys2Proof.Machine
end

