-- ==== Sys2Proof/Machine/Issue.lean ====
section
/-! DEFINITION. The block's answer to one command word, the host's list of words (the next word, placing a word there), the reset
events from outside, and lists of commands issued one after another. -/

namespace Sys2Proof.Machine

/-- The answer to an illegal word: `IllegalCommand`, whatever its other fields hold (60_exceptions.md R202, R207). -/
def execIllegal (s : State) : Result := whenAccepting s (.next (raiseFault .illegalCommand s))

/-- The block's answer to one command word: decoding comes before execution (R207). -/
def issue (w : Word) (s : State) : Result :=
  match decode w with
  | .ok i => exec i s
  | .error _ => execIllegal s

/-- The word the host issues next, if it has one left (10_state.md R27). -/
def nextWord (s : State) : Option Word := s.program[s.position]?

/-- The host goes on to the next word of its list (10_state.md R27, 30_encoding.md R69; log entry 2). -/
def advance (s : State) : State := { s with position := s.position + 1 }

/-- The resets of a list that come after more than `n` issued words. -/
def resetsAfter (n : Nat) (resets : List Nat) : List Nat := resets.dropWhile fun k => decide (k ≤ n)

/-- The next reset event comes before the next word is issued. -/
def resetDue (s : State) : Bool :=
  match s.resets with
  | [] => false
  | n :: _ => decide (n ≤ s.position)

/-- The next reset event, taken only between commands (70_reset_and_hazards.md R220). -/
def takeReset (s : State) : Result := whenQuiet s (.next { resetBlock s with resets := s.resets.tail })

/-- Nothing issued: an idle block holds its state (60_exceptions.md R215; log entry 3). -/
def idle (s : State) : Result := whenQuiet s (.next s)

/-- A list with `w` at index `n`: the word there is replaced, and a list that ends earlier is filled up with `w`. -/
def placeWord (w : Word) : Nat → List Word → List Word
  | 0, [] => [w]
  | 0, _ :: rest => w :: rest
  | n + 1, [] => w :: placeWord w n []
  | n + 1, x :: rest => x :: placeWord w n rest

/-- `k` after a next state; a stop stays the stop it is. -/
def andThen (r : Result) (k : State → Result) : Result :=
  match r with
  | .next s => k s
  | .fault f => .fault f
  | .refused f => .refused f

/-- Commands executed one after another, stopping at the first stop (20_memory.md R50). -/
def execAll : List Instr → State → Result
  | [], s => .next s
  | i :: is, s => andThen (exec i s) (execAll is)

/-- Command words issued one after another, stopping at the first stop. -/
def issueAll : List Word → State → Result
  | [], s => .next s
  | w :: ws, s => andThen (issue w s) (issueAll ws)

end Sys2Proof.Machine
end

