-- ==== Sys2Proof/Machine/Step.lean ====
section
/-! DEFINITION. One step: a reset event that is due, or the host's next command word and the block's answer to it. -/

namespace Sys2Proof.Machine

/-- One step of SEGDISP at transaction level (00_scope.md R3, R4; 10_state.md R27): a reset that comes before the next word is
taken; else the host issues its next word and the block answers it; with no word left the block is idle. -/
def step (s : State) : Host.Outcome State Fault Refusal :=
  if resetDue s then takeReset s
  else
    match nextWord s with
    | some w => issue w (advance s)
    | none => idle s

/-- `s` with the command word of an opcode-table word as the host's next word, and no reset before it (log entry 15). -/
def State.withFetchWord (s : State) (nbits w : Nat) : State :=
  { s with
    program := placeWord (tableWord nbits w) s.position s.program
    resets := resetsAfter s.position s.resets }

end Sys2Proof.Machine
end

