-- ==== Sys2Proof/Machine/CopyVariant.lean ====
section
/-! DEFINITION. The other reading of the control-bit injection: FLUSH sends an injected copy and leaves the cells as they were.
43_flush_serial.md R155 says no trace tells it from the in-place reading of R141; this file is what that claim speaks of, and no
part of the machine uses it. -/

namespace Sys2Proof.Machine

/-- FLUSH on a copy: the drives of the in-place FLUSH, the cells kept (R155). -/
def flushCopyWith (o : HalfByteOrder) (s : State) : State := { flushWith o s with fb := s.fb }

/-- FLUSH under the copy reading. -/
def execFlushCopy (s : State) : Result := whenAccepting s (.next (flushCopyWith s.halfByteOrder s))

/-- The commands under the copy reading: only FLUSH differs. -/
def execCopy (i : Instr) (s : State) : Result :=
  match i with
  | .erase => execErase s
  | .setp pos pat => execSetp pos pat s
  | .setc pos ch => execSetc pos ch s
  | .flush => execFlushCopy s

/-- The block's answer to one word under the copy reading. -/
def issueCopy (w : Word) (s : State) : Result :=
  match decode w with
  | .ok i => execCopy i s
  | .error _ => execIllegal s

/-- Command words issued one after another under the copy reading. -/
def issueAllCopy : List Word → State → Result
  | [], s => .next s
  | w :: ws, s => andThen (issueCopy w s) (issueAllCopy ws)

end Sys2Proof.Machine
end

