-- ==== Sys2Proof/Machine/Pseudo.lean ====
section
/-! DEFINITION. The pseudo-commands WRITE and SHOW (30_encoding.md R71, R72) and the assembler's source lines (R70). -/

namespace Sys2Proof.Machine

/-- `WRITE t == SETC 0, t[0]; ...; SETC n-1, t[n-1]` with `n = min(len(t), 12)` (R71). -/
def writeInstrs (t : List Byte) : List Instr := (t.take maxText).zipIdx.map fun bk => .setc bk.2 bk.1

/-- `SHOW t == ERASE; WRITE t; FLUSH` (R72). -/
def showInstrs (t : List Byte) : List Instr := .erase :: writeInstrs t ++ [.flush]

/-- A `ch` operand in source form: a number, or a quoted character that stands for its ASCII code (R70). -/
inductive CharOperand where
  | code (n : Nat)
  | quoted (c : Char)
  deriving DecidableEq, Repr

/-- A text operand in source form: a bracketed list of byte values, or a quoted string (R71). -/
inductive TextOperand where
  | bytes (bs : List Nat)
  | quoted (cs : List Char)
  deriving DecidableEq, Repr

/-- One line of assembler source (R70, R71, R72). -/
inductive AsmLine where
  | erase
  | flush
  | setp (pos pat : Nat)
  | setc (pos : Nat) (ch : CharOperand)
  | write (t : TextOperand)
  | showText (t : TextOperand)
  deriving DecidableEq, Repr

/-- The number a `ch` operand stands for (R70). -/
def CharOperand.value : CharOperand → Nat
  | .code n => n
  | .quoted c => c.toNat

/-- A byte value 0x00..0xFF, or an ASCII character; multi-byte text has no meaning (R70, 92_eei_decisions.md D12). -/
def CharOperand.wellFormed : CharOperand → Bool
  | .code n => decide (n ≤ 0xFF)
  | .quoted c => decide (c.toNat ≤ 0x7F)

/-- The text as a list of `ch` operands. -/
def TextOperand.chars : TextOperand → List CharOperand
  | .bytes bs => bs.map .code
  | .quoted cs => cs.map .quoted

/-- What the assembler accepts: it refuses `pat` > 0x7F and `pos` > 15 (R70), and every `ch` is a byte. -/
def AsmLine.wellFormed : AsmLine → Bool
  | .erase => true
  | .flush => true
  | .setp pos pat => posEncodable pos && decide (pat ≤ 0x7F)
  | .setc pos ch => posEncodable pos && ch.wellFormed
  | .write t => t.chars.all CharOperand.wellFormed
  | .showText t => t.chars.all CharOperand.wellFormed

/-- The words of a WRITE: one SETC word `0x3000 + k * 256 + t[k]` for each of its first 12 bytes (R70, R71). -/
def writeWordValues (t : List CharOperand) : List Nat :=
  (t.take maxText).zipIdx.map fun ck => 0x3000 + ck.2 * 256 + ck.1.value

/-- The words of a line as the numbers the table of R70 gives. -/
def AsmLine.wordValues : AsmLine → List Nat
  | .erase => [0x1000]
  | .flush => [0x4000]
  | .setp pos pat => [0x2000 + pos * 256 + pat]
  | .setc pos ch => [0x3000 + pos * 256 + ch.value]
  | .write t => writeWordValues t.chars
  | .showText t => 0x1000 :: writeWordValues t.chars ++ [0x4000]

/-- The assembler: the line's words, or nothing where it refuses the line (R70). -/
def assemble (l : AsmLine) : Option (List Word) :=
  if l.wellFormed then some (l.wordValues.map (BitVec.ofNat 16)) else none

/-- The commands a well-formed line stands for (R70, R71, R72). -/
def AsmLine.instrs : AsmLine → List Instr
  | .erase => [.erase]
  | .flush => [.flush]
  | .setp pos pat => [.setp pos (BitVec.ofNat 7 pat)]
  | .setc pos ch => [.setc pos (BitVec.ofNat 8 ch.value)]
  | .write t => writeInstrs (t.chars.map fun c => BitVec.ofNat 8 c.value)
  | .showText t => showInstrs (t.chars.map fun c => BitVec.ofNat 8 c.value)

end Sys2Proof.Machine
end

