-- ==== Sys2Proof/Machine/Observation.lean ====
section
/-! DEFINITION. What an observer reads from the trace: the levels, the bursts of 43_flush_serial.md R150, the event list a burst
is expected to leave, and the order rule of 70_reset_and_hazards.md R231. -/

namespace Sys2Proof.Machine

/-- The levels after a list of events that starts from given levels (10_state.md R24). -/
def levelsAfter (ls : LineLevels) (t : List Event) : LineLevels := t.foldl (fun l e => l.put e.1 e.2) ls

/-- The receiver's scan of a trace: levels, whether a burst is open, its bits so far, and the latched bursts (R150). -/
structure Scan where
  levels : LineLevels
  isOpen : Bool
  cur : List Level
  out : List (List Level)
  deriving DecidableEq, Repr

/-- A CLK rising edge while a burst is open samples DAT (R150, first line of the loop). -/
def Scan.sample (sc : Scan) (e : Event) : Scan :=
  if e = (.clk, true) ∧ sc.levels.clk = false ∧ sc.isOpen = true then { sc with cur := sc.cur ++ [sc.levels.dat] } else sc

/-- `(CE, 1)` opens a burst (R150, second line). -/
def Scan.openBurst (sc : Scan) (e : Event) : Scan :=
  if e = (.ce, true) then { sc with isOpen := true, cur := [] } else sc

/-- `(CE, 0)` latches an open burst (R150, third line). -/
def Scan.closeBurst (sc : Scan) (e : Event) : Scan :=
  if e = (.ce, false) ∧ sc.isOpen = true then { sc with out := sc.out ++ [sc.cur], isOpen := false } else sc

/-- One round of the loop of R150. -/
def scanEvent (sc : Scan) (e : Event) : Scan :=
  let sc' := ((sc.sample e).openBurst e).closeBurst e
  { sc' with levels := sc'.levels.put e.1 e.2 }

/-- The scan of a trace that starts from given levels. -/
def scanFrom (ls : LineLevels) (t : List Event) : Scan := t.foldl scanEvent ⟨ls, false, [], []⟩

/-- `Bursts(trace)`, starting from `LINES_INIT`: one list of bits per latched burst (R150). -/
def bursts (t : List Event) : List (List Level) := (scanFrom initialLines t).out

/-- The 8 bits of a cell, bit 7 first (20_memory.md R41). -/
def cellBits (v : Byte) : List Level := bitIndices.map fun k => v.getLsbD k.val

/-- The 56 bits of a half in the order sent (20_memory.md R42, 43_flush_serial.md R151). -/
def halfBits (o : HalfByteOrder) (h : Half) (fb : FrameBuffer) : List Level :=
  (order o h).toList.flatMap fun c => cellBits fb[c.val]

/-- The three events of one bit (43_flush_serial.md R144). -/
def bitEvents (b : Level) : List Event := [(.dat, b), (.clk, true), (.clk, false)]

/-- The 173 events of one burst (R142 to R146). -/
def halfEvents (o : HalfByteOrder) (h : Half) (fb : FrameBuffer) : List Event :=
  [(.clk, false), (.dat, false), (.ce, true)] ++ (halfBits o h fb).flatMap bitEvents ++ [(.dat, false), (.ce, false)]

/-- The 346 events of one FLUSH that sends the cells `fb` (R140, R146, R148). -/
def flushEvents (o : HalfByteOrder) (fb : FrameBuffer) : List Event := halfEvents o .a fb ++ halfEvents o .b fb

/-- An event that keeps the order of R231 from given levels: DAT is driven only while CLK is 0, CLK rises only while CE is 1,
and CE changes only while CLK is 0. -/
def eventInOrder (ls : LineLevels) (e : Event) : Bool :=
  match e with
  | (.dat, _) => !ls.clk
  | (.clk, true) => ls.ce
  | (.clk, false) => true
  | (.ce, _) => !ls.clk

/-- Every event of a trace that starts from given levels keeps the order of R231. -/
def traceInOrder : LineLevels → List Event → Bool
  | _, [] => true
  | ls, e :: t => eventInOrder ls e && traceInOrder (ls.put e.1 e.2) t

end Sys2Proof.Machine
end

