-- ==== Sys2Proof/Safety.lean ====
section
/-! DEFINITION. When a state is one the block can be in, when a run of the host's list ended well, and the vocabulary claims use. -/

namespace Sys2Proof.Machine

/-- The block is idle and not faulted, so it executes the next command (60_exceptions.md R205, 10_state.md R31). -/
def Accepting (s : State) : Prop := s.status = statusNone ∧ s.sequencer = none

/-- The block is idle and faulted (60_exceptions.md R205). -/
def Faulted (s : State) : Prop :=
  (s.status = FaultKind.positionRange.code ∨ s.status = FaultKind.illegalCommand.code) ∧ s.sequencer = none

/-- A word that raises a fault when it is issued (60_exceptions.md R201, R202). -/
def FaultingWord (w : Word) : Prop :=
  (∃ r, decode w = .error r) ∨ ∃ i, decode w = .ok i ∧ i.legalPosition = false

/-- The run of `k` steps from `s` reaches the faulted state, whatever follows there (60_exceptions.md R205). -/
def RunFaults (s : State) (k : Nat) : Prop := ∃ j ≤ k, ∃ u : State, Host.Core.run core j s = .next u ∧ Faulted u

/-- The run of the host's list from `s` ended well after `k` steps, in `t`: its last command has completed, the status is 0b00, and
no state of the run was faulted, so a run with a fault stays a run that went wrong also when a reset clears the fault
(70_reset_and_hazards.md R232, 60_exceptions.md R205). -/
def RunEndedWell (s : State) (k : Nat) (t : State) : Prop :=
  Host.Core.run core k s = .next t ∧ t.position = t.program.length ∧ Accepting t ∧ ¬ RunFaults s k

/-- Every line holds the level last driven on it, or `LINES_INIT` before the first drive (10_state.md R24). -/
def LinesMatchTrace (s : State) : Prop := s.lines = levelsAfter initialLines s.trace

/-- The trace is made of whole FLUSHes, each of cells that hold both control values (43_flush_serial.md R140, R151). -/
def TraceIsFlushes (s : State) : Prop :=
  ∃ frames : List FrameBuffer, s.trace = frames.flatMap (flushEvents s.halfByteOrder) ∧ ∀ f ∈ frames, injectFb f = f

/-- The cells no position reaches: cell 0, and bits 7..3 of cell 13, are 0 or as at reset (10_state.md R22). -/
def UnreachedCells (s : State) : Prop :=
  (readCell s 0 = 0 ∨ readCell s 0 = Config.fbInit 0) ∧
    (readCell s 13 &&& ctrlMask = 0 ∨ readCell s 13 &&& ctrlMask = Config.fbInit 13 &&& ctrlMask)

/-- Bit 6, which the mapper never sets, is 0 or as at reset in every cell (41_segment_mapper.md R112). -/
def UnmappedBit (s : State) : Prop :=
  ∀ c : Fin 14, (readCell s c).getLsbD 6 = false ∨ (readCell s c).getLsbD 6 = (Config.fbInit c).getLsbD 6

/-- What holds of the block between any two steps, from reset on. -/
structure Inv (s : State) : Prop where
  /-- The reserved status is never produced (10_state.md R25). -/
  status : s.status ≠ statusReserved
  /-- The sequencer is idle between commands (10_state.md R31). -/
  quiet : s.sequencer = none
  /-- The host is inside its list or at its end (10_state.md R27). -/
  position : s.position ≤ s.program.length
  lines : LinesMatchTrace s
  flushes : TraceIsFlushes s
  /-- Every drive since reset kept the order of 70_reset_and_hazards.md R231. -/
  inOrder : traceInOrder initialLines s.trace = true
  unreached : UnreachedCells s
  unmapped : UnmappedBit s

/-- Nothing but frame-buffer cells differs (the frame of 42_framebuffer_commands.md R121, R122, R123). -/
def OnlyCellsChanged (s t : State) : Prop := t = { s with fb := t.fb }

/-- Nothing but the status register differs (the frame of fault entry, 60_exceptions.md R204). -/
def OnlyStatusChanged (s t : State) : Prop := t = { s with status := t.status }

/-- What `WRITE t` leaves in a cell that held `old`: the glyph of byte `12 - c` of the text where the cell is a position's and
the text reaches it (42_framebuffer_commands.md R124). -/
def writtenCell (t : List Byte) (c : Fin 14) (old : Byte) : Byte :=
  if 1 ≤ c.val ∧ c.val ≤ 12 then
    match t[12 - c.val]? with
    | some b => map (enc b)
    | none => old
  else old

/-- What `SHOW t` leaves in a cell and sends: the text over blank cells, with the control values in bits 2..0 of cells 6 and 13
(30_encoding.md R72, 43_flush_serial.md R141). -/
def shownCell (t : List Byte) (c : Fin 14) : Byte :=
  if c = 6 then (writtenCell t 6 0 &&& 0xF8) ||| 4
  else if c = 13 then 1
  else writtenCell t c 0

/-- Two states that differ at most in bits 2..0 of the control cells 6 and 13 (43_flush_serial.md R155). -/
def SameButControl (s t : State) : Prop :=
  injectFb s.fb = injectFb t.fb ∧ { s with fb := t.fb } = t

/-- Two outcomes of the same kind, with related next states or the same stop. -/
def SameOutcome (r : State → State → Prop) : Result → Result → Prop
  | .next s, .next t => r s t
  | .fault f, .fault g => f = g
  | .refused f, .refused g => f = g
  | _, _ => False

end Sys2Proof.Machine
end

