-- ==== Sys2Proof/Certificates/Slice0/Obligations.lean ====
section
/-! DEFINITION. The statements for the provers, one Prop each, from the numbered rules of spec/. -/

open Sys2Proof Sys2Proof.Machine

/-! ### Reset and the invariant -/

/-- The state after reset: no fault, no event, an idle sequencer, cells and lines at the open parameters `FB_INIT` and `LINES_INIT`,
and the cell order at the value the spec decides (10_state.md R33, 70_reset_and_hazards.md R220, 20_memory.md R42).  These values are
the spec's own decisions D5, D6, D9, D10, D15; the two parameters are opaque (log entries 5 and 6), so the statement holds for every
value of them; that the order stands in State is log entry 23. -/
def Obligations.ResetLeavesDecidedState : Prop :=
  State.reset.status = 0b00 ∧ State.reset.trace = [] ∧ State.reset.sequencer = none ∧
    (∀ c : Fin 14, readCell State.reset c = Config.fbInit c) ∧
    (∀ l : Line, State.reset.lines.get l = Config.linesInit l) ∧ State.reset.halfByteOrder = .descending

/-- The block's invariant holds after reset. -/
def Obligations.ResetMeetsBlockInvariant : Prop := Inv State.reset

/-- Every step keeps the block's invariant: the status is never the reserved value, no FLUSH is left running, the lines hold the
levels last driven, the trace is a sequence of whole FLUSHes that keep the order of R231, and the cells and bits no command can
set are 0 or as at reset (10_state.md R22, R24, R25, R31; 43_flush_serial.md R151; 70_reset_and_hazards.md R231).  It holds for
either cell order. -/
def Obligations.EveryStepKeepsBlockInvariant : Prop :=
  ∀ s t : State, Inv s → step s = .next t → Inv t

/-! ### Encoding (the encodings are the spec's own decision D2) -/

/-- Words written out from the encodings of 30_encoding.md R66, one or more per command, and what they decode to. -/
def Obligations.SpecWordsDecodeAsWritten : Prop :=
  decode 0b0001000000000000 = .ok .erase ∧
    decode 0b0010101101111111 = .ok (.setp 11 0b1111111) ∧
    decode 0b0010000001000000 = .ok (.setp 0 0b1000000) ∧
    decode 0b0011101110000001 = .ok (.setc 11 0b10000001) ∧
    decode 0b0011111111111111 = .ok (.setc 15 0b11111111) ∧
    decode 0b0100000000000000 = .ok .flush ∧
    decode 0b0000000000000000 = .error .illegalOp ∧
    decode 0b0001000000000001 = .error .operandBitsSet ∧
    decode 0b0010110010000000 = .error .patternBit7Set ∧
    decode 0b0100000100000000 = .error .operandBitsSet ∧
    decode 0b1111111111111111 = .error .illegalOp

/-- Decoding the word of a well-formed command gives the command back, for every operand the encoding admits. -/
def Obligations.DecodeOfEncodeIsIdentity : Prop :=
  ∀ i : Instr, i.wellFormed = true → decode (encode i) = .ok i

/-- A word that decodes is the word of the command it decodes to: no bit of a legal word is ignored. -/
def Obligations.EncodeOfDecodeIsIdentity : Prop :=
  ∀ (w : Word) (i : Instr), decode w = .ok i → i.wellFormed = true ∧ encode i = w

/-- The decoder and the opcode map agree on every word: a row selects a word exactly when the word decodes to that row's command
(30_encoding.md R66). -/
def Obligations.DecoderAgreesWithOpcodeMap : Prop :=
  ∀ (w : Word), ∀ r ∈ opcodeTable, r.selects w = true ↔ ∃ i, decode w = .ok i ∧ i.mnemonic = r.mnemonic

/-- The illegal words are exactly those 30_encoding.md R67 lists: `op` 0x0 or 0x5..0xF, an ERASE or FLUSH word with any of bits
11:0 set, a SETP word with bit 7 set. -/
def Obligations.IllegalWordsAreExactlyTheListed : Prop :=
  ∀ w : Word, (∃ r, decode w = .error r) ↔
    (w.toNat / 4096 = 0 ∨ 5 ≤ w.toNat / 4096) ∨
      ((w.toNat / 4096 = 1 ∨ w.toNat / 4096 = 4) ∧ w.toNat % 4096 ≠ 0) ∨
      (w.toNat / 4096 = 2 ∧ w.getLsbD 7 = true)

/-- The assembler gives a line it accepts the words of the commands the line stands for, and refuses every other line
(30_encoding.md R70, R71, R72).  R70 names the refusal of `pat` > 0x7F and `pos` > 15; that a `ch` above 0xFF and a quoted
character outside ASCII are refused as well is the model's choice, log entry 19. -/
def Obligations.AssemblerWordsEncodeTheCommands : Prop :=
  ∀ l : AsmLine, assemble l = if l.wellFormed then some (l.instrs.map encode) else none

/-! ### The encoder ROM, the mapper and the positions -/

/-- `ENC` returns the stored entry at 0x00..0x7E and 0b1011100 at every other address (40_encoder_rom.md R100).  The entries are
the opaque parameter `ENC_ROM`, log entry 7. -/
def Obligations.EncReturnsEntryOrFallback : Prop :=
  (∀ k : Fin 127, enc (BitVec.ofNat 8 k.val) = Config.encRom k) ∧
    ∀ a : Byte, 0x7F ≤ a.toNat → enc a = 0b1011100

/-- `MAP` sets physical bit `OFFSET[i]` exactly when pattern bit `6 - i` is set, `OFFSET = [2,0,4,3,1,7,5]`, and no other bit
(41_segment_mapper.md R110). -/
def Obligations.MapSetsOffsetBits : Prop :=
  ∀ p : Pattern,
    (map p).getLsbD 2 = p.getLsbD 6 ∧ (map p).getLsbD 0 = p.getLsbD 5 ∧ (map p).getLsbD 4 = p.getLsbD 4 ∧
      (map p).getLsbD 3 = p.getLsbD 3 ∧ (map p).getLsbD 1 = p.getLsbD 2 ∧ (map p).getLsbD 7 = p.getLsbD 1 ∧
      (map p).getLsbD 5 = p.getLsbD 0 ∧ (map p).getLsbD 6 = false ∧
      map 0x00 = 0x00 ∧ map 0x7F = 0xBF ∧ map 0x5C = 0x1E

/-- `MAP` is a bijection from the 7-bit patterns onto the bytes with bit 6 clear, with the inverse of R113
(41_segment_mapper.md R113). -/
def Obligations.MapIsBijectiveOntoBit6Clear : Prop :=
  (∀ p : Pattern, unmap (map p) = p) ∧
    (∀ b : Byte, b.getLsbD 6 = false → map (unmap b) = b) ∧
    ∀ p q : Pattern, map p = map q ↔ p = q

/-- Legal positions have distinct cells, positions 0..5 in half B and 6..11 in half A, never cell 0 or 13; a position above 11
has none (42_framebuffer_commands.md R120; that it is a fault is the spec's decision D4). -/
def Obligations.PositionsHaveDistinctCells : Prop :=
  (∀ pos pos' c, cellOf pos = some c → cellOf pos' = some c → pos = pos') ∧
    (∀ pos, pos ≤ 5 → ∃ c, cellOf pos = some c ∧ 7 ≤ c.val ∧ c.val ≤ 12) ∧
    (∀ pos, 6 ≤ pos → pos ≤ 11 → ∃ c, cellOf pos = some c ∧ 1 ≤ c.val ∧ c.val ≤ 6) ∧
    ∀ pos, 12 ≤ pos → cellOf pos = none

/-! ### The frame-buffer commands -/

/-- ERASE completes, clears all 14 cells and changes nothing else; a second ERASE leaves the same state; its word is 0x1000; and
no other command changes cell 0 or bits 7..3 of cell 13 (42_framebuffer_commands.md R121, 10_state.md R22). -/
def Obligations.EraseClearsEveryCell : Prop :=
  (encode .erase = 0x1000 ∧ ∀ w : Word, decode w = .ok .erase → w = 0x1000) ∧
    (∀ s : State, Accepting s → ∃ t, exec .erase s = .next t ∧ (∀ c, readCell t c = 0) ∧ OnlyCellsChanged s t ∧
      exec .erase t = .next t) ∧
    ∀ (i : Instr) (s t : State), exec i s = .next t → i ≠ .erase →
      readCell t 0 = readCell s 0 ∧ readCell t 13 &&& 0xF8 = readCell s 13 &&& 0xF8

/-- SETP at a legal position completes, replaces the whole cell `12 - pos` by `MAP(pat)` and changes nothing else; at a position
12 or more it raises `PositionRange` with nothing written; its words are 0x2000 + pos * 256 + pat, with bit 7 clear
(42_framebuffer_commands.md R122; the encoding and the fault are the spec's decisions D2, D4). -/
def Obligations.SetpStoresMappedPattern : Prop :=
  (∀ (s : State) (pos : Nat) (pat : Pattern), Accepting s →
    (pos ≤ 11 → ∃ t, exec (.setp pos pat) s = .next t ∧
      (∀ c, readCell t c = if c.val = 12 - pos then map pat else readCell s c) ∧ OnlyCellsChanged s t) ∧
    (12 ≤ pos → ∃ t, exec (.setp pos pat) s = .next t ∧ t.status = 0b01 ∧ OnlyStatusChanged s t)) ∧
    (∀ (pos : Nat) (pat : Pattern), pos ≤ 15 → decode (BitVec.ofNat 16 (0x2000 + pos * 256 + pat.toNat)) = .ok (.setp pos pat)) ∧
    ∀ (w : Word) (pos : Nat) (pat : Pattern), decode w = .ok (.setp pos pat) → w.getLsbD 7 = false ∧ w &&& 0xF080 = 0x2000

/-- SETC at a legal position completes, replaces the whole cell `12 - pos` by `MAP(ENC(ch))` and changes nothing else; it has the
same effect as `SETP pos, ENC(ch)`; a character 0x7F or above writes 0x1E, and bit 6 of the written cell is 0; at a position 12
or more it raises `PositionRange` with nothing written; its words are 0x3000 + pos * 256 + ch (42_framebuffer_commands.md R123;
the encoding and the fault are the spec's decisions D2, D4). -/
def Obligations.SetcStoresEncodedCharacter : Prop :=
  (∀ (s : State) (pos : Nat) (ch : Byte), Accepting s →
    exec (.setc pos ch) s = exec (.setp pos (enc ch)) s ∧
    (pos ≤ 11 → ∃ t, exec (.setc pos ch) s = .next t ∧
      (∀ c, readCell t c = if c.val = 12 - pos then map (enc ch) else readCell s c) ∧ OnlyCellsChanged s t ∧
      (0x7F ≤ ch.toNat → ∀ c : Fin 14, c.val = 12 - pos → readCell t c = 0x1E) ∧
      ∀ c : Fin 14, c.val = 12 - pos → (readCell t c).getLsbD 6 = false) ∧
    (12 ≤ pos → ∃ t, exec (.setc pos ch) s = .next t ∧ t.status = 0b01 ∧ OnlyStatusChanged s t)) ∧
    (∀ (pos : Nat) (ch : Byte), pos ≤ 15 → decode (BitVec.ofNat 16 (0x3000 + pos * 256 + ch.toNat)) = .ok (.setc pos ch)) ∧
    ∀ (w : Word) (pos : Nat) (ch : Byte), decode w = .ok (.setc pos ch) → w &&& 0xF000 = 0x3000

/-- A cell keeps its value until ERASE, SETP, SETC or a FLUSH injection writes it (10_state.md R21). -/
def Obligations.CellsChangeOnlyByTheirWriters : Prop :=
  ∀ (i : Instr) (s t : State) (c : Fin 14), exec i s = .next t → readCell t c ≠ readCell s c →
    i = .erase ∨ (∃ pos pat, i = .setp pos pat ∧ pos ≤ 11 ∧ c.val = 12 - pos) ∨
      (∃ pos ch, i = .setc pos ch ∧ pos ≤ 11 ∧ c.val = 12 - pos) ∨ (i = .flush ∧ (c = 6 ∨ c = 13))

/-- What each command writes of a cell: ERASE all of all 14, SETP and SETC all 8 bits of one cell with bit 6 clear and bit 7 as the
mapper gives it, FLUSH bits 2..0 of cells 6 and 13 only (20_memory.md R45). -/
def Obligations.CommandsWriteWholeCellsOrControlBits : Prop :=
  ∀ s : State, Accepting s →
    (∃ t, exec .erase s = .next t ∧ ∀ c, readCell t c = 0) ∧
    (∀ (pos : Nat) (pat : Pattern), pos ≤ 11 → ∃ t, exec (.setp pos pat) s = .next t ∧ ∀ c : Fin 14,
      (c.val = 12 - pos → (readCell t c).getLsbD 6 = false ∧ (readCell t c).getLsbD 7 = pat.getLsbD 1 ∧ unmap (readCell t c) = pat) ∧
        (c.val ≠ 12 - pos → readCell t c = readCell s c)) ∧
    (∀ (pos : Nat) (ch : Byte), pos ≤ 11 → ∃ t, exec (.setc pos ch) s = .next t ∧ ∀ c : Fin 14,
      (c.val = 12 - pos → (readCell t c).getLsbD 6 = false ∧ (readCell t c).getLsbD 7 = (enc ch).getLsbD 1 ∧
          unmap (readCell t c) = enc ch) ∧
        (c.val ≠ 12 - pos → readCell t c = readCell s c)) ∧
    ∃ t, exec .flush s = .next t ∧ ∀ (c : Fin 14) (k : Nat),
      (c = 6 → k < 3 → (readCell t c).getLsbD k = (4#8).getLsbD k) ∧
        (c = 13 → k < 3 → (readCell t c).getLsbD k = (1#8).getLsbD k) ∧
        ((c ≠ 6 ∧ c ≠ 13) ∨ 3 ≤ k → (readCell t c).getLsbD k = (readCell s c).getLsbD k)

/-- ERASE, SETP and SETC repeated leave the state they left the first time (20_memory.md R47). -/
def Obligations.FrameBufferWritesAreIdempotent : Prop :=
  ∀ (i : Instr) (s : State), Accepting s → i.legalPosition = true → i ≠ .flush →
    ∃ t, exec i s = .next t ∧ exec i t = .next t

/-! ### FLUSH and the serial protocol -/

/-- FLUSH completes: it keeps every cell but 6 and 13, whose bits 2..0 become 4 and 1, leaves every line at 0, appends 346 events,
and changes nothing else (43_flush_serial.md R140, R141, R146, R147).  Writing the injected values back is the spec's decision
D8, log entry 10. -/
def Obligations.FlushInjectsAndSends : Prop :=
  ∀ s : State, Accepting s → ∃ t, exec .flush s = .next t ∧
    (∀ c : Fin 14, readCell t c =
      if c = 6 then (readCell s 6 &&& 0xF8) ||| 4 else if c = 13 then (readCell s 13 &&& 0xF8) ||| 1 else readCell s c) ∧
    t.lines = ⟨false, false, false⟩ ∧ s.trace <+: t.trace ∧ t.trace.length = s.trace.length + 346 ∧
    t = { s with fb := t.fb, lines := t.lines, trace := t.trace }

/-- The 346 events of a FLUSH one by one, for both cell orders: each burst drives CLK, DAT, CE, then for each cell and each bit
from 7 down to 0 DAT to the bit, CLK to 1, CLK to 0, then DAT and CE to 0 (43_flush_serial.md R142 to R145, 20_memory.md R41,
R42).  FLUSH runs in the order the machine is given (00_scope.md R11).  The order inside steps 1 and 3 is the spec's decision D7
(log entry 9); the bits sent are those of the cells after the injection. -/
def Obligations.FlushDrivesEventsInOrder : Prop :=
  (∀ s : State, Accepting s → exec .flush s = .next (flushWith s.halfByteOrder s)) ∧
    ∀ (o : HalfByteOrder) (s : State), ∃ ev : List Event,
      (flushWith o s).trace = s.trace ++ ev ∧ ev.length = 346 ∧
      ∀ h : Half,
        let base := match h with | .a => 0 | .b => 173
        let cell : Fin 7 → Fin 14 := fun j =>
          match o, h with
          | .descending, .a => ⟨6 - j.val, by omega⟩
          | .descending, .b => ⟨13 - j.val, by omega⟩
          | .ascending, .a => ⟨j.val, by omega⟩
          | .ascending, .b => ⟨7 + j.val, by omega⟩
        ev[base]? = some (.clk, false) ∧ ev[base + 1]? = some (.dat, false) ∧ ev[base + 2]? = some (.ce, true) ∧
          (∀ (j : Fin 7) (k : Fin 8),
            ev[base + 3 + 24 * j.val + 3 * k.val]? = some (.dat, (readCell (flushWith o s) (cell j)).getLsbD (7 - k.val)) ∧
              ev[base + 4 + 24 * j.val + 3 * k.val]? = some (.clk, true) ∧
              ev[base + 5 + 24 * j.val + 3 * k.val]? = some (.clk, false)) ∧
          ev[base + 171]? = some (.dat, false) ∧ ev[base + 172]? = some (.ce, false)

/-- What a FLUSH adds to the bursts a rising-edge receiver reads: exactly two lists of 56 bits, after whatever it read before.  Burst
A is the 56-bit number of cells 6 down to 0 and burst B that of cells 13 down to 7, most significant bit first, when the machine's
cell order is `Descending`; of cells 0 up to 6 and 7 up to 13 when it is `Ascending` (43_flush_serial.md R150, R151, 20_memory.md
R42; the observation is the spec's decision D16). -/
def Obligations.FlushContributesTwoBursts : Prop :=
  ∀ s : State, Accepting s → ∃ t A B, exec .flush s = .next t ∧ bursts t.trace = bursts s.trace ++ [A, B] ∧
    A.length = 56 ∧ B.length = 56 ∧
    (s.halfByteOrder = .descending → ∀ n : Nat, n < 56 →
      A[n]? = some ((readCell t 6 ++ readCell t 5 ++ readCell t 4 ++ readCell t 3 ++ readCell t 2 ++ readCell t 1 ++
        readCell t 0).getMsbD n) ∧
      B[n]? = some ((readCell t 13 ++ readCell t 12 ++ readCell t 11 ++ readCell t 10 ++ readCell t 9 ++ readCell t 8 ++
        readCell t 7).getMsbD n)) ∧
    (s.halfByteOrder = .ascending → ∀ n : Nat, n < 56 →
      A[n]? = some ((readCell t 0 ++ readCell t 1 ++ readCell t 2 ++ readCell t 3 ++ readCell t 4 ++ readCell t 5 ++
        readCell t 6).getMsbD n) ∧
      B[n]? = some ((readCell t 7 ++ readCell t 8 ++ readCell t 9 ++ readCell t 10 ++ readCell t 11 ++ readCell t 12 ++
        readCell t 13).getMsbD n))

/-- Of the 346 events of a FLUSH 112 are `(CLK, 1)`, 2 are `(CE, 1)` and 2 are `(CE, 0)` (43_flush_serial.md R146). -/
def Obligations.FlushEventCounts : Prop :=
  ∀ (o : HalfByteOrder) (s : State), ∃ ev : List Event, (flushWith o s).trace = s.trace ++ ev ∧ ev.length = 346 ∧
    ev.count (.clk, true) = 112 ∧ ev.count (.ce, true) = 2 ∧ ev.count (.ce, false) = 2

/-- From any line levels, a FLUSH drives DAT only while CLK is 0, raises CLK only while CE is 1, and changes CE only while CLK is
0 (70_reset_and_hazards.md R231, R228). -/
def Obligations.FlushKeepsDriveOrder : Prop :=
  ∀ (o : HalfByteOrder) (s : State), ∃ ev : List Event, (flushWith o s).trace = s.trace ++ ev ∧
    ∀ ls : LineLevels, traceInOrder ls ev = true

/-- The events of a FLUSH depend on nothing but the cells after the injection: two accepting states of machines with the same cell
order that agree on those append the same events, whatever their lines, traces, host lists and resets to come are
(43_flush_serial.md R148). -/
def Obligations.FlushEventsDependOnlyOnCells : Prop :=
  ∀ s t : State, Accepting s → Accepting t → s.halfByteOrder = t.halfByteOrder →
    (∀ c : Fin 14, c ≠ 6 → c ≠ 13 → readCell s c = readCell t c) →
    readCell s 6 &&& 0xF8 = readCell t 6 &&& 0xF8 → readCell s 13 &&& 0xF8 = readCell t 13 &&& 0xF8 →
    ∃ s' t' ev, exec .flush s = .next s' ∧ exec .flush t = .next t' ∧ s'.trace = s.trace ++ ev ∧ t'.trace = t.trace ++ ev

/-- Two FLUSHes in a row leave the same cells and append the same events twice (43_flush_serial.md R154). -/
def Obligations.SecondFlushRepeatsTheFirst : Prop :=
  ∀ s : State, Accepting s → ∃ t u ev, exec .flush s = .next t ∧ exec .flush t = .next u ∧ u.fb = t.fb ∧
    t.trace = s.trace ++ ev ∧ u.trace = t.trace ++ ev

/-- A glyph stored at position 6 is sent with physical bits 2, 1, 0 forced to 1, 0, 0 and the others as the mapper gives them: in
burst A the 8 bits of cell 6 come first when the cell order is `Descending` and last when it is `Ascending`, and they are pattern
bit 1, 0, pattern bits 0, 4, 3, then 1, 0, 0 (43_flush_serial.md R153, 41_segment_mapper.md R110).  That cell 6 itself holds the same
bits after the FLUSH is the spec's decision D8, log entry 10. -/
def Obligations.Position6GlyphIsOverloaded : Prop :=
  ∀ (s : State) (pat : Pattern), Accepting s → ∃ t u A B, exec (.setp 6 pat) s = .next t ∧ exec .flush t = .next u ∧
    readCell t 6 = map pat ∧ bursts u.trace = bursts s.trace ++ [A, B] ∧
    (A.drop (match s.halfByteOrder with | .descending => 0 | .ascending => 48)).take 8 =
      [pat.getLsbD 1, false, pat.getLsbD 0, pat.getLsbD 4, pat.getLsbD 3, true, false, false] ∧
    (readCell u 6).getLsbD 2 = true ∧ (readCell u 6).getLsbD 1 = false ∧ (readCell u 6).getLsbD 0 = false ∧
    (readCell u 6).getLsbD 7 = pat.getLsbD 1 ∧ (readCell u 6).getLsbD 6 = false ∧ (readCell u 6).getLsbD 5 = pat.getLsbD 0 ∧
    (readCell u 6).getLsbD 4 = pat.getLsbD 4 ∧ (readCell u 6).getLsbD 3 = pat.getLsbD 3

/-- After ERASE a FLUSH sends 0x00 for every cell except 0x04 for cell 6 and 0x01 for cell 13, which come first in their bursts when
the cell order is `Descending` and last when it is `Ascending` (43_flush_serial.md R152).  That cells 6 and 13 hold these values
after the FLUSH is the spec's decision D8, log entry 10. -/
def Obligations.EraseThenFlushSendsOnlyControlBits : Prop :=
  let bits : BitVec 56 → List Level := fun v => (List.range 56).map v.getMsbD
  ∀ s : State, Accepting s → ∃ t u, exec .erase s = .next t ∧ exec .flush t = .next u ∧
    (∀ c : Fin 14, readCell u c = if c = 6 then 0x04 else if c = 13 then 0x01 else 0x00) ∧
    bursts u.trace = bursts s.trace ++
      match s.halfByteOrder with
      | .descending => [bits 0x04000000000000, bits 0x01000000000000]
      | .ascending => [bits 0x04, bits 0x01]

/-- Injecting in place and injecting into a copy that is sent give the same traces: states that differ at most in bits 2..0 of cells
6 and 13 stay so when the two machines are issued the same word, or stop alike; and issued the same words from the same state, the
two machines stop alike or reach such states with the same trace, lines and status (43_flush_serial.md R155). -/
def Obligations.InPlaceAndCopyInjectionAreIndistinguishable : Prop :=
  (∀ (w : Word) (s t : State), SameButControl s t → SameOutcome SameButControl (issue w s) (issueCopy w t)) ∧
    ∀ (ws : List Word) (s : State),
      SameOutcome (fun t u => SameButControl t u ∧ t.trace = u.trace ∧ t.lines = u.lines ∧ t.status = u.status)
        (issueAll ws s) (issueAllCopy ws s)

/-! ### Rules over all commands -/

/-- Only FLUSH touches the lines and the trace; the changes of ERASE, SETP and SETC are local to the frame buffer (or, for a
position fault, to the status) and no observer of the lines sees them (20_memory.md R51). -/
def Obligations.ChangesBetweenFlushesAreLocal : Prop :=
  ∀ (i : Instr) (s t : State), exec i s = .next t → i ≠ .flush →
    t.lines = s.lines ∧ t.trace = s.trace ∧ bursts t.trace = bursts s.trace

/-- SEGDISP reads no line: with any other levels on the lines a command stops alike, or reaches the same state up to the lines
(43_flush_serial.md R149). -/
def Obligations.NoCommandReadsTheLines : Prop :=
  ∀ (i : Instr) (s : State) (ls : LineLevels),
    SameOutcome (fun t u => { t with lines := u.lines } = u) (exec i s) (exec i { s with lines := ls })

/-- No command transfers control: a command neither reads nor writes the host's words and position; every word the host issues
advances the position by one and keeps the words, also a word that raises a fault, which is the model's reading of R27 (log entry 2);
and a reset event, which is no word of the host, keeps both (log entry 4) (30_encoding.md R69, 10_state.md R27). -/
def Obligations.NoCommandTransfersControl : Prop :=
  (∀ (i : Instr) (s : State) (pr : List Word) (n : Nat),
    SameOutcome (fun t u => t.program = s.program ∧ t.position = s.position ∧ { t with program := pr, position := n } = u)
      (exec i s) (exec i { s with program := pr, position := n })) ∧
    (∀ (s t : State), resetDue s = false → nextWord s ≠ none → step s = .next t →
      t.program = s.program ∧ t.position = s.position + 1) ∧
    ∀ (s t : State), resetDue s = true → step s = .next t → t.program = s.program ∧ t.position = s.position

/-- No other fault exists: on an accepting block every command reaches a next state, with `status.FAULT = 0b00` unless it carries
a position above 11; and every WRITE expansion ends without a fault (60_exceptions.md R206).  That a position above 11 leaves
`PositionRange` in the status and changes nothing else is the spec's decisions D4 and D5 (R201, R204; log entries 20 and 11). -/
def Obligations.OnlyPositionRangeFaultsACommand : Prop :=
  ∀ s : State, Accepting s →
    (∀ i : Instr, ∃ t, exec i s = .next t ∧ (i.legalPosition = true → t.status = 0b00) ∧
      (i.legalPosition = false → t.status = 0b01 ∧ OnlyStatusChanged s t)) ∧
    ∀ text : List Byte, ∃ t, execAll (writeInstrs text) s = .next t ∧ t.status = 0b00

/-- A step changes the lines or the trace only when the host's next word is the FLUSH word 0x4000 or a reset is due
(20_memory.md R51, 10_state.md R24). -/
def Obligations.StepTouchesLinesOnlyAtFlushOrReset : Prop :=
  ∀ s t : State, step s = .next t → t.lines ≠ s.lines ∨ t.trace ≠ s.trace →
    nextWord s = some 0x4000 ∨ resetDue s = true

/-- The trace only grows until a reset: no event is removed or reordered (10_state.md R28; that the trace is the observation is
the spec's decision D16). -/
def Obligations.TraceOnlyGrowsUntilReset : Prop :=
  ∀ s t : State, step s = .next t → s.trace <+: t.trace ∨ (resetDue s = true ∧ t.trace = [])

/-! ### Faults (the fault mechanism is the spec's own decision D3, D4, D5) -/

/-- A SETP or SETC at a position 12 or more enters the fault precisely: the code 0b01 goes into the status, nothing else changes,
and the block is faulted (60_exceptions.md R201, R204). -/
def Obligations.PositionFaultEntryIsPrecise : Prop :=
  ∀ (s : State) (pos : Nat) (pat : Pattern) (ch : Byte), Accepting s → 12 ≤ pos →
    ∃ t, exec (.setp pos pat) s = .next t ∧ exec (.setc pos ch) s = .next t ∧
      t.status = 0b01 ∧ OnlyStatusChanged s t ∧ Faulted t

/-- An illegal word enters the fault precisely, with the code 0b10 whatever its position field holds: decoding comes before
execution (60_exceptions.md R202, R204, R207). -/
def Obligations.IllegalWordFaultEntryIsPrecise : Prop :=
  ∀ (s : State) (w : Word) (r : Reject), Accepting s → decode w = .error r →
    ∃ t, issue w s = .next t ∧ t.status = 0b10 ∧ OnlyStatusChanged s t ∧ Faulted t

/-- A faulted block accepts no command: every command, every word and every step that would issue one has no step
(60_exceptions.md R205; 93_implementation_defined.md I7). -/
def Obligations.FaultedBlockHasNoStep : Prop :=
  ∀ s : State, Faulted s → (∀ i : Instr, exec i s = .fault .stuck) ∧ (∀ w : Word, issue w s = .fault .stuck) ∧
    (resetDue s = false → nextWord s ≠ none → step s = .fault .stuck)

/-- Only reset leaves the faulted state: a step of a faulted block is an idle step or a reset, and the reset makes it accept
commands again (60_exceptions.md R205, R209).  The idle step is the model's, log entry 3. -/
def Obligations.OnlyResetLeavesTheFault : Prop :=
  ∀ s t : State, Faulted s → step s = .next t →
    (resetDue s = false ∧ nextWord s = none ∧ t = s) ∨ (resetDue s = true ∧ Accepting t)

/-- A reset event between commands, in a faulted block or not, sets the block's state as in R33 and drives no line; the host's words
and position, the cell order and the later resets stay (70_reset_and_hazards.md R220; the decisions D5, D9, D10, D15).  That a reset
comes after a number of issued words and keeps the host's list is the model's choice, log entry 4. -/
def Obligations.ResetEventClearsTheBlock : Prop :=
  ∀ (s : State) (n : Nat) (later : List Nat), s.sequencer = none → s.resets = n :: later → n ≤ s.position →
    ∃ t, step s = .next t ∧ t.status = 0b00 ∧ t.trace = [] ∧ t.sequencer = none ∧ (∀ c, readCell t c = Config.fbInit c) ∧
      (∀ l, t.lines.get l = Config.linesInit l) ∧ t.halfByteOrder = s.halfByteOrder ∧ t.program = s.program ∧
      t.position = s.position ∧ t.resets = later

/-- States the spec says never exist are refused by name: the reserved status value, and any step while a FLUSH is running
(93_implementation_defined.md I8, I9; log entries 12 and 13). -/
def Obligations.IllFormedStatesAreRefused : Prop :=
  (∀ (s : State) (i : Instr), s.sequencer = none → s.status = 0b11 → exec i s = .refused .reservedStatus) ∧
    ∀ (s : State) (q : Sequencer), s.sequencer = some q →
      (∀ i : Instr, exec i s = .refused .flushInProgress) ∧ step s = .refused .flushInProgress

/-! ### Steps and runs -/

/-- A step that no reset precedes and whose next word decodes runs the decoded command on the state with the position advanced by
one (10_state.md R27, 30_encoding.md R66).  That the position advances also where the command raises a fault is the model's reading
of R27, log entry 2. -/
def Obligations.StepRunsTheDecodedCommand : Prop :=
  ∀ (s : State) (w : Word) (i : Instr), resetDue s = false → s.program[s.position]? = some w → decode w = .ok i →
    step s = exec i { s with position := s.position + 1 }

/-- A step with no word left and no reset due is idle and changes nothing (60_exceptions.md R215; the model's choice, log entry 3). -/
def Obligations.StepWithoutMoveIsIdle : Prop :=
  ∀ s : State, s.sequencer = none → resetDue s = false → s.program.length ≤ s.position → step s = .next s

/-- A word placed as the host's next word is the one the very next step decodes and runs: the placing touches only the words and
drops the resets that would come before it (log entry 15).  That the position advances also where the placed word raises a fault is
log entry 2. -/
def Obligations.PlacedWordIsTheNextCommand : Prop :=
  ∀ (s : State) (nbits w : Nat) (i : Instr), decodeTableWord nbits w = some i →
    step (s.withFetchWord nbits w) =
      exec i { s with
        program := (s.withFetchWord nbits w).program
        position := s.position + 1
        resets := s.resets.dropWhile fun n => n ≤ s.position }

/-- A list of commands at legal positions, issued from an accepting block that is not reset, ends well after as many steps as it has
commands, with the state the commands executed one after another give (70_reset_and_hazards.md R232, 20_memory.md R50). -/
def Obligations.LegalCommandListEndsWell : Prop :=
  ∀ (is : List Instr) (s : State), (∀ i ∈ is, i.legalPosition = true) → Accepting s → s.resets = [] →
    s.program = is.map encode → s.position = 0 →
    ∃ t : State, RunEndedWell s is.length t ∧ execAll is s = .next { t with position := 0 }

/-- A run that reaches the faulted state does not end well, whatever follows, a reset included: no run of a list with a faulting word
still to be issued ends well, from any state, after any number of steps and with any resets; and no longer run does once one of its
states was faulted (70_reset_and_hazards.md R232, 60_exceptions.md R205). -/
def Obligations.FaultedRunNeverEndsWell : Prop :=
  (∀ (s : State) (n : Nat) (w : Word), s.position ≤ n → s.program[n]? = some w → FaultingWord w →
    ∀ (k : Nat) (t : State), ¬ RunEndedWell s k t) ∧
    ∀ (s : State) (j k : Nat) (u : State), Host.Core.run core j s = .next u → Faulted u → j ≤ k →
      ∀ t : State, ¬ RunEndedWell s k t

/-! ### The pseudo-commands -/

/-- WRITE completes and leaves in each cell of a position the text reaches the glyph of its byte, every other cell and everything
else as before (42_framebuffer_commands.md R124, R125; the byte as the unit of text is the spec's decision D12). -/
def Obligations.WriteStoresTheText : Prop :=
  ∀ (text : List Byte) (s : State), Accepting s → ∃ t, execAll (writeInstrs text) s = .next t ∧
    (∀ c : Fin 14, readCell t c = writtenCell text c (readCell s c)) ∧ OnlyCellsChanged s t

/-- WRITE does not clear: cells of positions the text does not reach keep their values; the three bytes of "ABC" go to cells 12, 11
and 10, and cells 0..9 and 13 remain what they were (42_framebuffer_commands.md R125). -/
def Obligations.WriteDoesNotClear : Prop :=
  (∀ (text : List Byte) (s : State), Accepting s → ∃ t, execAll (writeInstrs text) s = .next t ∧
    ∀ c : Fin 14, c = 0 ∨ c = 13 ∨ text.length ≤ 12 - c.val → readCell t c = readCell s c) ∧
    ∀ s : State, Accepting s → ∃ t, execAll (writeInstrs [0x41, 0x42, 0x43]) s = .next t ∧
      readCell t 12 = map (enc 0x41) ∧ readCell t 11 = map (enc 0x42) ∧ readCell t 10 = map (enc 0x43) ∧
      ∀ c : Fin 14, c.val ≤ 9 ∨ c = 13 → readCell t c = readCell s c

/-- A text longer than 12 bytes is written exactly as its first 12 bytes, by 12 commands; the empty text by none, which leaves any
state as it is, and a FLUSH after it still sends two bursts of 56 bits (42_framebuffer_commands.md R126, R127). -/
def Obligations.WriteTruncatesAndEmptyTextFlushes : Prop :=
  (∀ text : List Byte, 12 < text.length →
    writeInstrs text = writeInstrs (text.take 12) ∧ (writeInstrs text).length = 12) ∧
    writeInstrs [] = [] ∧ (∀ s : State, execAll (writeInstrs []) s = .next s) ∧
    ∀ s : State, Accepting s → ∃ t A B, execAll (writeInstrs [] ++ [.flush]) s = .next t ∧
      bursts t.trace = bursts s.trace ++ [A, B] ∧ A.length = 56 ∧ B.length = 56

/-- The order of the commands inside one WRITE is not observable: any order of them reaches the same state
(42_framebuffer_commands.md R128). -/
def Obligations.WriteOrderIsNotObservable : Prop :=
  ∀ (text : List Byte) (l : List Instr) (s : State), Accepting s → l.Perm (writeInstrs text) →
    ∃ t, execAll l s = .next t ∧ execAll (writeInstrs text) s = .next t

/-- SHOW end to end: from any accepting state the text is shown over blank cells with the two control values, the block neither
faults nor leaves a line high, and the receiver reads exactly the two bursts of those cells in the machine's cell order
(30_encoding.md R72, 43_flush_serial.md R151).  That cells 6 and 13 keep the control values is the spec's decision D8, log
entry 10. -/
def Obligations.ShowSendsTheText : Prop :=
  ∀ (text : List Byte) (s : State), Accepting s → ∃ t, execAll (showInstrs text) s = .next t ∧
    (∀ c : Fin 14, readCell t c = shownCell text c) ∧ Accepting t ∧ t.lines = ⟨false, false, false⟩ ∧
    bursts t.trace = bursts s.trace ++ [halfBits s.halfByteOrder .a t.fb, halfBits s.halfByteOrder .b t.fb]

/-- No step changes the machine's cell order, an argument of the machine (00_scope.md R11), or the host's words; a step issues at
most one word and takes at most one reset, never both (00_scope.md R3, R4; that resets are a list beside the words is log entry 4,
that the order stands in State log entry 23). -/
def Obligations.StepKeepsTheOrderAndTheWords : Prop :=
  ∀ s t : State, step s = .next t → t.halfByteOrder = s.halfByteOrder ∧ t.program = s.program ∧
    ((t.position = s.position + 1 ∧ t.resets = s.resets) ∨ (t.position = s.position ∧ s.resets = t.resets) ∨
      (t.position = s.position ∧ ∃ n, s.resets = n :: t.resets))
end

