-- ==== Sys2Proof/Laws/Decode.lean ====
section
/-! SUPPORT. The bits and fields of an encoded command, and the opcode map's rows. -/

namespace Sys2Proof

theorem posEncodable_iff {pos : Nat} : posEncodable pos = true ↔ pos ≤ 15 := by simp [posEncodable]

/-- A command of a legal position has an encoding. -/
theorem wellFormed_of_legalPosition {i : Instr} (h : i.legalPosition = true) : i.wellFormed = true := by
  cases i <;> simp_all [Instr.legalPosition, Instr.wellFormed, posEncodable] <;> omega

/-- A word of format P: `op` in 15:12, `pos` in 11:8, bit 7 zero, `pat` in 6:0 (30_encoding.md R63). -/
def formatP (op : BitVec 4) (pos : Nat) (pat : Pattern) : Word := op ++ BitVec.ofNat 4 pos ++ 0#1 ++ pat

/-- A word of format C: `op` in 15:12, `pos` in 11:8, `ch` in 7:0 (30_encoding.md R64). -/
def formatC (op : BitVec 4) (pos : Nat) (ch : Byte) : Word := op ++ BitVec.ofNat 4 pos ++ ch

theorem encode_setp (pos : Nat) (pat : Pattern) : encode (.setp pos pat) = formatP 0x2#4 pos pat := rfl

theorem encode_setc (pos : Nat) (ch : Byte) : encode (.setc pos ch) = formatC 0x3#4 pos ch := rfl

theorem getLsbD_formatP (op : BitVec 4) (pos : Nat) (pat : Pattern) (i : Nat) :
    (formatP op pos pat).getLsbD i =
      if i < 7 then pat.getLsbD i else if i < 8 then false
      else if i < 12 then (BitVec.ofNat 4 pos).getLsbD (i - 8) else op.getLsbD (i - 12) := by
  change BitVec.getLsbD (w := 4 + 4 + 1 + 7) (op ++ BitVec.ofNat 4 pos ++ 0#1 ++ pat) i = _
  rw [BitVec.getLsbD_append, BitVec.getLsbD_append, BitVec.getLsbD_append]
  by_cases h7 : i < 7
  · simp [h7]
  · by_cases h8 : i < 8
    · simp [h7, h8, show i - 7 < 1 by omega]
    · by_cases h12 : i < 12
      · simp only [h7, h8, h12, show ¬ i - 7 < 1 by omega, show i - 7 - 1 < 4 by omega, ite_true, ite_false]
        congr 1
      · simp only [h7, h8, h12, show ¬ i - 7 < 1 by omega, show ¬ i - 7 - 1 < 4 by omega, ite_false]
        congr 1

theorem getLsbD_formatC (op : BitVec 4) (pos : Nat) (ch : Byte) (i : Nat) :
    (formatC op pos ch).getLsbD i =
      if i < 8 then ch.getLsbD i
      else if i < 12 then (BitVec.ofNat 4 pos).getLsbD (i - 8) else op.getLsbD (i - 12) := by
  change BitVec.getLsbD (w := 4 + 4 + 8) (op ++ BitVec.ofNat 4 pos ++ ch) i = _
  rw [BitVec.getLsbD_append, BitVec.getLsbD_append]
  by_cases h8 : i < 8
  · simp [h8]
  · by_cases h12 : i < 12
    · simp [h8, h12, show i - 8 < 4 by omega]
    · simp only [h8, h12, show ¬ i - 8 < 4 by omega, ite_false]
      congr 1

/-- The fields of a word of format P. -/
theorem fields_formatP (op : BitVec 4) (pos : Nat) (pat : Pattern) :
    opField (formatP op pos pat) = op ∧ posField (formatP op pos pat) = pos % 16 ∧
      patField (formatP op pos pat) = pat ∧ (formatP op pos pat).getLsbD 7 = false := by
  have hpos : (formatP op pos pat).extractLsb' 8 4 = BitVec.ofNat 4 pos := by
    refine BitVec.eq_of_getLsbD_eq fun i hi => ?_
    simp [getLsbD_formatP, hi, show ¬ 8 + i < 7 by omega, show 8 + i < 12 by omega]
  refine ⟨?_, by simp [posField, hpos], ?_, by rw [getLsbD_formatP]; simp⟩
  · refine BitVec.eq_of_getLsbD_eq fun i hi => ?_
    simp [opField, getLsbD_formatP, hi, show ¬ 12 + i < 7 by omega,
      show ¬ 12 + i < 8 by omega]
  · refine BitVec.eq_of_getLsbD_eq fun i hi => ?_
    simp [patField, getLsbD_formatP, hi]

/-- The fields of a word of format C. -/
theorem fields_formatC (op : BitVec 4) (pos : Nat) (ch : Byte) :
    opField (formatC op pos ch) = op ∧ posField (formatC op pos ch) = pos % 16 ∧ chField (formatC op pos ch) = ch := by
  have hpos : (formatC op pos ch).extractLsb' 8 4 = BitVec.ofNat 4 pos := by
    refine BitVec.eq_of_getLsbD_eq fun i hi => ?_
    simp [getLsbD_formatC, hi, show 8 + i < 12 by omega]
  refine ⟨?_, by simp [posField, hpos], ?_⟩
  · refine BitVec.eq_of_getLsbD_eq fun i hi => ?_
    simp [opField, getLsbD_formatC, hi, show ¬ 12 + i < 8 by omega]
  · refine BitVec.eq_of_getLsbD_eq fun i hi => ?_
    simp [chField, getLsbD_formatC, hi]

/-- No word selects two rows of the opcode map (30_encoding.md R66): two rows differ in a bit both masks keep. -/
theorem opcodeTable_rows_disjoint :
    opcodeTable.Pairwise fun r r' => r.pattern &&& (r.mask &&& r'.mask) ≠ r'.pattern &&& (r.mask &&& r'.mask) := by
  decide

end Sys2Proof
end

