-- ==== Sys2Proof/Laws/State.lean ====
section
/-! SUPPORT. The fields of a state after each state update: one lemma per field per update, and the fields at reset. -/

namespace Sys2Proof.Machine

@[simp] theorem writeCell_fb (c : Fin 14) (v : Byte) (s : State) :
    (writeCell c v s).fb = s.fb.set c.val v := rfl
@[simp] theorem writeCell_lines (c : Fin 14) (v : Byte) (s : State) :
    (writeCell c v s).lines = s.lines := rfl
@[simp] theorem writeCell_status (c : Fin 14) (v : Byte) (s : State) :
    (writeCell c v s).status = s.status := rfl
@[simp] theorem writeCell_trace (c : Fin 14) (v : Byte) (s : State) :
    (writeCell c v s).trace = s.trace := rfl
@[simp] theorem writeCell_sequencer (c : Fin 14) (v : Byte) (s : State) :
    (writeCell c v s).sequencer = s.sequencer := rfl
@[simp] theorem writeCell_halfByteOrder (c : Fin 14) (v : Byte) (s : State) :
    (writeCell c v s).halfByteOrder = s.halfByteOrder := rfl
@[simp] theorem writeCell_program (c : Fin 14) (v : Byte) (s : State) :
    (writeCell c v s).program = s.program := rfl
@[simp] theorem writeCell_position (c : Fin 14) (v : Byte) (s : State) :
    (writeCell c v s).position = s.position := rfl
@[simp] theorem writeCell_resets (c : Fin 14) (v : Byte) (s : State) :
    (writeCell c v s).resets = s.resets := rfl

@[simp] theorem drive_fb (l : Line) (b : Level) (s : State) :
    (drive l b s).fb = s.fb := rfl
@[simp] theorem drive_lines (l : Line) (b : Level) (s : State) :
    (drive l b s).lines = s.lines.put l b := rfl
@[simp] theorem drive_status (l : Line) (b : Level) (s : State) :
    (drive l b s).status = s.status := rfl
@[simp] theorem drive_trace (l : Line) (b : Level) (s : State) :
    (drive l b s).trace = s.trace ++ [(l, b)] := rfl
@[simp] theorem drive_sequencer (l : Line) (b : Level) (s : State) :
    (drive l b s).sequencer = s.sequencer := rfl
@[simp] theorem drive_halfByteOrder (l : Line) (b : Level) (s : State) :
    (drive l b s).halfByteOrder = s.halfByteOrder := rfl
@[simp] theorem drive_program (l : Line) (b : Level) (s : State) :
    (drive l b s).program = s.program := rfl
@[simp] theorem drive_position (l : Line) (b : Level) (s : State) :
    (drive l b s).position = s.position := rfl
@[simp] theorem drive_resets (l : Line) (b : Level) (s : State) :
    (drive l b s).resets = s.resets := rfl

@[simp] theorem raiseFault_fb (k : FaultKind) (s : State) :
    (raiseFault k s).fb = s.fb := rfl
@[simp] theorem raiseFault_lines (k : FaultKind) (s : State) :
    (raiseFault k s).lines = s.lines := rfl
@[simp] theorem raiseFault_status (k : FaultKind) (s : State) :
    (raiseFault k s).status = k.code := rfl
@[simp] theorem raiseFault_trace (k : FaultKind) (s : State) :
    (raiseFault k s).trace = s.trace := rfl
@[simp] theorem raiseFault_sequencer (k : FaultKind) (s : State) :
    (raiseFault k s).sequencer = s.sequencer := rfl
@[simp] theorem raiseFault_halfByteOrder (k : FaultKind) (s : State) :
    (raiseFault k s).halfByteOrder = s.halfByteOrder := rfl
@[simp] theorem raiseFault_program (k : FaultKind) (s : State) :
    (raiseFault k s).program = s.program := rfl
@[simp] theorem raiseFault_position (k : FaultKind) (s : State) :
    (raiseFault k s).position = s.position := rfl
@[simp] theorem raiseFault_resets (k : FaultKind) (s : State) :
    (raiseFault k s).resets = s.resets := rfl

@[simp] theorem resetBlock_fb (s : State) :
    (resetBlock s).fb = initialFb := rfl
@[simp] theorem resetBlock_lines (s : State) :
    (resetBlock s).lines = initialLines := rfl
@[simp] theorem resetBlock_status (s : State) :
    (resetBlock s).status = statusNone := rfl
@[simp] theorem resetBlock_trace (s : State) :
    (resetBlock s).trace = [] := rfl
@[simp] theorem resetBlock_sequencer (s : State) :
    (resetBlock s).sequencer = none := rfl
@[simp] theorem resetBlock_halfByteOrder (s : State) :
    (resetBlock s).halfByteOrder = s.halfByteOrder := rfl
@[simp] theorem resetBlock_program (s : State) :
    (resetBlock s).program = s.program := rfl
@[simp] theorem resetBlock_position (s : State) :
    (resetBlock s).position = s.position := rfl
@[simp] theorem resetBlock_resets (s : State) :
    (resetBlock s).resets = s.resets := rfl

@[simp] theorem inject_fb (s : State) :
    (inject s).fb = injectFb s.fb := rfl
@[simp] theorem inject_lines (s : State) :
    (inject s).lines = s.lines := rfl
@[simp] theorem inject_status (s : State) :
    (inject s).status = s.status := rfl
@[simp] theorem inject_trace (s : State) :
    (inject s).trace = s.trace := rfl
@[simp] theorem inject_sequencer (s : State) :
    (inject s).sequencer = s.sequencer := rfl
@[simp] theorem inject_halfByteOrder (s : State) :
    (inject s).halfByteOrder = s.halfByteOrder := rfl
@[simp] theorem inject_program (s : State) :
    (inject s).program = s.program := rfl
@[simp] theorem inject_position (s : State) :
    (inject s).position = s.position := rfl
@[simp] theorem inject_resets (s : State) :
    (inject s).resets = s.resets := rfl

@[simp] theorem advance_fb (s : State) :
    (advance s).fb = s.fb := rfl
@[simp] theorem advance_lines (s : State) :
    (advance s).lines = s.lines := rfl
@[simp] theorem advance_status (s : State) :
    (advance s).status = s.status := rfl
@[simp] theorem advance_trace (s : State) :
    (advance s).trace = s.trace := rfl
@[simp] theorem advance_sequencer (s : State) :
    (advance s).sequencer = s.sequencer := rfl
@[simp] theorem advance_halfByteOrder (s : State) :
    (advance s).halfByteOrder = s.halfByteOrder := rfl
@[simp] theorem advance_program (s : State) :
    (advance s).program = s.program := rfl
@[simp] theorem advance_position (s : State) :
    (advance s).position = s.position + 1 := rfl
@[simp] theorem advance_resets (s : State) :
    (advance s).resets = s.resets := rfl

@[simp] theorem withFetchWord_fb (s : State) (nbits w : Nat) :
    (s.withFetchWord nbits w).fb = s.fb := rfl
@[simp] theorem withFetchWord_lines (s : State) (nbits w : Nat) :
    (s.withFetchWord nbits w).lines = s.lines := rfl
@[simp] theorem withFetchWord_status (s : State) (nbits w : Nat) :
    (s.withFetchWord nbits w).status = s.status := rfl
@[simp] theorem withFetchWord_trace (s : State) (nbits w : Nat) :
    (s.withFetchWord nbits w).trace = s.trace := rfl
@[simp] theorem withFetchWord_sequencer (s : State) (nbits w : Nat) :
    (s.withFetchWord nbits w).sequencer = s.sequencer := rfl
@[simp] theorem withFetchWord_halfByteOrder (s : State) (nbits w : Nat) :
    (s.withFetchWord nbits w).halfByteOrder = s.halfByteOrder := rfl
@[simp] theorem withFetchWord_program (s : State) (nbits w : Nat) :
    (s.withFetchWord nbits w).program = placeWord (tableWord nbits w) s.position s.program := rfl
@[simp] theorem withFetchWord_position (s : State) (nbits w : Nat) :
    (s.withFetchWord nbits w).position = s.position := rfl
@[simp] theorem withFetchWord_resets (s : State) (nbits w : Nat) :
    (s.withFetchWord nbits w).resets = resetsAfter s.position s.resets := rfl

@[simp] theorem reset_fb : State.reset.fb = initialFb := rfl
@[simp] theorem reset_lines : State.reset.lines = initialLines := rfl
@[simp] theorem reset_status : State.reset.status = statusNone := rfl
@[simp] theorem reset_trace : State.reset.trace = [] := rfl
@[simp] theorem reset_sequencer : State.reset.sequencer = none := rfl
@[simp] theorem reset_halfByteOrder : State.reset.halfByteOrder = decidedHalfByteOrder := rfl
@[simp] theorem reset_program : State.reset.program = [] := rfl
@[simp] theorem reset_position : State.reset.position = 0 := rfl
@[simp] theorem reset_resets : State.reset.resets = [] := rfl

end Sys2Proof.Machine
end

