-- ==== Sys2Proof/Laws/Ops.lean ====
section
/-! SUPPORT. The shared operations, each said once: cells, positions, acceptance, fault entry, and the frame buffer's forms. -/

namespace Sys2Proof.Machine

/-! ### Cells -/

@[simp] theorem readCell_mk (fb : FrameBuffer) (l st t q o p n rs) (c : Fin 14) :
    readCell ⟨fb, l, st, t, q, o, p, n, rs⟩ c = fb[c.val] := rfl

theorem readCell_writeCell_same (c : Fin 14) (v : Byte) (s : State) : readCell (writeCell c v s) c = v := by
  simp [readCell]

theorem readCell_writeCell_other {c d : Fin 14} (v : Byte) (s : State) (h : d ≠ c) :
    readCell (writeCell c v s) d = readCell s d := by
  have : c.val ≠ d.val := fun e => h (Fin.ext e.symm)
  simp [readCell, this]

theorem readCell_writeCell (c d : Fin 14) (v : Byte) (s : State) :
    readCell (writeCell c v s) d = if d = c then v else readCell s d := by
  by_cases h : d = c
  · subst h; simp [readCell_writeCell_same]
  · simp [readCell_writeCell_other v s h, h]

theorem readCell_blank (s : State) (c : Fin 14) : readCell { s with fb := blankFb } c = 0 := by
  simp [readCell, blankFb]

theorem readCell_congr {s t : State} (h : s.fb = t.fb) (c : Fin 14) : readCell s c = readCell t c := by
  simp [readCell, h]

theorem initialFb_get (c : Fin 14) : initialFb[c.val] = Config.fbInit c := by
  simp [initialFb]

/-- Two frame buffers with the same cells are the same. -/
theorem frameBuffer_ext {f g : FrameBuffer} (h : ∀ c : Fin 14, f[c.val] = g[c.val]) : f = g :=
  Vector.ext fun i hi => h ⟨i, hi⟩

/-! ### Positions -/

theorem cellOf_legal {pos : Nat} (h : pos ≤ 11) : cellOf pos = some ⟨12 - pos, by omega⟩ := by simp [cellOf, h]

theorem cellOf_illegal {pos : Nat} (h : 12 ≤ pos) : cellOf pos = none := by
  simp [cellOf, show ¬ pos ≤ 11 by omega]

theorem cellOf_eq_some {pos : Nat} {c : Fin 14} : cellOf pos = some c ↔ pos ≤ 11 ∧ c.val = 12 - pos := by
  by_cases h : pos ≤ 11
  · simp [cellOf, h, Fin.ext_iff, eq_comm]
  · simp [cellOf, h]

theorem storeAtPosition_legal {pos : Nat} (h : pos ≤ 11) (v : Byte) (s : State) :
    storeAtPosition pos v s = writeCell ⟨12 - pos, by omega⟩ v s := by simp [storeAtPosition, cellOf_legal h]

theorem storeAtPosition_illegal {pos : Nat} (h : 12 ≤ pos) (v : Byte) (s : State) :
    storeAtPosition pos v s = raiseFault .positionRange s := by simp [storeAtPosition, cellOf_illegal h]

/-- Everything a command with a position can do. -/
theorem storeAtPosition_cases (pos : Nat) (v : Byte) (s : State) :
    (∃ h : pos ≤ 11, storeAtPosition pos v s = writeCell ⟨12 - pos, by omega⟩ v s) ∨
      (12 ≤ pos ∧ storeAtPosition pos v s = raiseFault .positionRange s) := by
  by_cases h : pos ≤ 11
  · exact .inl ⟨h, storeAtPosition_legal h v s⟩
  · exact .inr ⟨by omega, storeAtPosition_illegal (by omega) v s⟩

/-! ### When a command executes -/

theorem whenAccepting_of_accepting {s : State} (h : Accepting s) (r : Result) : whenAccepting s r = r := by
  simp [whenAccepting, whenQuiet, h.1, h.2]

theorem whenAccepting_of_faulted {s : State} (h : Faulted s) (r : Result) : whenAccepting s r = .fault .stuck := by
  obtain ⟨h | h, hq⟩ := h <;> simp [whenAccepting, whenQuiet, h, hq, FaultKind.code, statusNone, statusReserved]

/-- A guarded outcome is a next state exactly when the block accepts and the outcome is that state. -/
theorem whenAccepting_eq_next {s t : State} {r : Result} (h : whenAccepting s r = .next t) : Accepting s ∧ r = .next t := by
  unfold whenAccepting whenQuiet at h
  split at h
  · cases h
  · next hq =>
    split at h
    · next hs => exact ⟨⟨hs, by simpa using hq⟩, h⟩
    · split at h <;> cases h

theorem whenQuiet_of_quiet {s : State} (h : s.sequencer = none) (r : Result) : whenQuiet s r = r := by
  simp [whenQuiet, h]

theorem whenQuiet_eq_next {s t : State} {r : Result} (h : whenQuiet s r = .next t) :
    s.sequencer = none ∧ r = .next t := by
  unfold whenQuiet at h
  split at h
  · cases h
  · next hq => exact ⟨by simpa using hq, h⟩

@[simp] theorem accepting_advance (s : State) : Accepting (advance s) ↔ Accepting s := Iff.rfl

@[simp] theorem faulted_advance (s : State) : Faulted (advance s) ↔ Faulted s := Iff.rfl

theorem accepting_resetBlock (s : State) : Accepting (resetBlock s) := ⟨rfl, rfl⟩

theorem faulted_raiseFault (k : FaultKind) {s : State} (h : s.sequencer = none) : Faulted (raiseFault k s) := by
  refine ⟨?_, by simpa using h⟩
  cases k <;> simp

theorem not_accepting_of_faulted {s : State} (h : Faulted s) : ¬ Accepting s := by
  rintro ⟨h0, -⟩
  obtain ⟨h | h, -⟩ := h <;> rw [h0] at h <;> exact absurd h (by decide)

/-! ### The host's list -/

theorem placeWord_get (w : Word) (n : Nat) (l : List Word) : (placeWord w n l)[n]? = some w := by
  induction n generalizing l with
  | zero => cases l <;> simp [placeWord]
  | succ n ih => cases l <;> simp [placeWord, ih]

/-- Placing a word inside the list or at its end changes no other entry. -/
theorem placeWord_get_other (w : Word) {n k : Nat} (l : List Word) (hn : n ≤ l.length) (hk : k ≠ n) :
    (placeWord w n l)[k]? = l[k]? := by
  induction n generalizing l k with
  | zero =>
    obtain ⟨k, rfl⟩ : ∃ j, k = j + 1 := ⟨k - 1, by omega⟩
    cases l <;> simp [placeWord]
  | succ n ih =>
    cases l with
    | nil => simp at hn
    | cons x l =>
      cases k with
      | zero => simp [placeWord]
      | succ k => simpa [placeWord] using ih l (by simpa using hn) (by omega)

theorem nextWord_withFetchWord (s : State) (nbits w : Nat) :
    nextWord (s.withFetchWord nbits w) = some (tableWord nbits w) := by
  simp [nextWord, placeWord_get]

theorem nextWord_lt {s : State} {w : Word} (h : nextWord s = some w) : s.position < s.program.length :=
  (List.getElem?_eq_some_iff.mp h).1

/-! ### Reset events -/

@[simp] theorem resetDue_nil {s : State} (h : s.resets = []) : resetDue s = false := by simp [resetDue, h]

/-- A reset is due exactly when the next one of the list comes after no more words than were issued. -/
theorem resetDue_iff {s : State} : resetDue s = true ↔ ∃ n rest, s.resets = n :: rest ∧ n ≤ s.position := by
  unfold resetDue
  cases s.resets <;> simp

theorem resetsAfter_head {p n : Nat} {rs rest : List Nat} (h : resetsAfter p rs = n :: rest) : p < n := by
  induction rs with
  | nil => cases h
  | cons k rs ih =>
    by_cases hk : k ≤ p
    · exact ih (by simpa [resetsAfter, hk] using h)
    · simp [resetsAfter, hk] at h; omega

theorem resetDue_withFetchWord (s : State) (nbits w : Nat) : resetDue (s.withFetchWord nbits w) = false := by
  by_contra hd
  obtain ⟨n, rest, hr, hn⟩ := resetDue_iff.mp (by simpa using hd)
  have := resetsAfter_head hr
  simp at hn; omega

/-! ### Lists of commands -/

@[simp] theorem execAll_nil (s : State) : execAll [] s = .next s := rfl
@[simp] theorem issueAll_nil (s : State) : issueAll [] s = .next s := rfl
@[simp] theorem andThen_next (s : State) (k : State → Result) : andThen (.next s) k = k s := rfl

theorem andThen_eq_next {r : Result} {k : State → Result} {t : State} (h : andThen r k = .next t) :
    ∃ s, r = .next s ∧ k s = .next t := by
  cases r with
  | next s => exact ⟨s, rfl, h⟩
  | fault f => cases h
  | refused f => cases h

theorem andThen_assoc (r : Result) (k l : State → Result) :
    andThen (andThen r k) l = andThen r fun s => andThen (k s) l := by cases r <;> rfl

theorem execAll_cons_next {i : Instr} {is : List Instr} {s t : State} (h : exec i s = .next t) :
    execAll (i :: is) s = execAll is t := by simp [execAll, h]

theorem execAll_append (is js : List Instr) (s : State) :
    execAll (is ++ js) s = andThen (execAll is s) (execAll js) := by
  induction is generalizing s with
  | nil => rfl
  | cons i is ih =>
    have : execAll (is ++ js) = fun s => andThen (execAll is s) (execAll js) := funext ih
    simp only [List.cons_append, execAll, andThen_assoc, this]

end Sys2Proof.Machine
end

