-- ==== Sys2Proof/Laws/Serial.lean ====
section
/-! SUPPORT. The serial controller said once: what a FLUSH leaves, and the algebra of the control-bit injection. -/

namespace Sys2Proof.Machine

/-! ### The control-bit injection -/

theorem withControl_idem {ctrl : Byte} (h : ctrl &&& ctrlMask = 0) (v : Byte) :
    withControl ctrl (withControl ctrl v) = withControl ctrl v := by
  unfold withControl
  ext i hi
  have hc := congrArg (fun x => x.getLsbD i) h
  simp only [BitVec.getLsbD_and] at hc
  simp only [BitVec.getElem_or, BitVec.getElem_and]
  rw [BitVec.getLsbD_eq_getElem hi, BitVec.getLsbD_eq_getElem hi] at hc
  revert hc
  cases v[i] <;> cases ctrl[i] <;> cases ctrlMask[i] <;> simp

theorem ctrlA_low : ctrlA &&& ctrlMask = 0 := by decide
theorem ctrlB_low : ctrlB &&& ctrlMask = 0 := by decide

theorem withControl_high (ctrl v : Byte) (h : ctrl &&& ctrlMask = 0) : withControl ctrl v &&& ctrlMask = v &&& ctrlMask := by
  unfold withControl
  rw [BitVec.and_or_distrib_right, h, BitVec.and_assoc]
  simp

/-- Each cell after the injection (43_flush_serial.md R141). -/
theorem injectFb_get (fb : FrameBuffer) (c : Fin 14) :
    (injectFb fb)[c.val] =
      if c = 6 then withControl ctrlA fb[c.val] else if c = 13 then withControl ctrlB fb[c.val] else fb[c.val] := by
  revert c
  intro ⟨c, hc⟩
  simp only [injectFb, Vector.getElem_set, Fin.ext_iff]
  by_cases h13 : c = 13
  · subst h13; simp
  · by_cases h6 : c = 6
    · subst h6; simp
    · have a : ¬ 13 = c := fun e => h13 e.symm
      have b : ¬ 6 = c := fun e => h6 e.symm
      simp [a, b, h6, h13]

theorem injectFb_idem (fb : FrameBuffer) : injectFb (injectFb fb) = injectFb fb := by
  refine frameBuffer_ext fun c => ?_
  simp only [injectFb_get]
  by_cases h6 : c = 6
  · simp [h6, withControl_idem ctrlA_low]
  · by_cases h13 : c = 13
    · simp [h13, withControl_idem ctrlB_low]
    · simp [h6, h13]

/-! ### The bursts -/

/-- One bit appends its three events, leaves CLK at 0 and DAT at the bit (R144). -/
theorem sendBit_eq (o : HalfByteOrder) (h : Half) (j : Fin 7) (s : State) (k : Fin 8) :
    sendBit o h j s k =
      { s with
        lines := ⟨false, s.lines.ce, bitAt o s.fb ⟨h, j, k⟩⟩
        trace := s.trace ++ bitEvents (bitAt o s.fb ⟨h, j, k⟩)
        sequencer := some ⟨h, j, k⟩ } := by
  simp [sendBit, drive, LineLevels.put, bitEvents]

/-- What a run of drives may change: the trace by appending, the lines, the sequencer. -/
theorem foldl_sendBit (o : HalfByteOrder) (h : Half) (j : Fin 7) (ks : List (Fin 8)) (s : State) (hk : ks ≠ []) :
    ∃ q d, ks.foldl (sendBit o h j) s =
      { s with
        lines := ⟨false, s.lines.ce, d⟩
        trace := s.trace ++ ks.flatMap fun k => bitEvents (bitAt o s.fb ⟨h, j, k⟩)
        sequencer := some q } := by
  induction ks generalizing s with
  | nil => exact absurd rfl hk
  | cons k ks ih =>
    rw [List.foldl_cons, sendBit_eq]
    by_cases hks : ks = []
    · subst hks
      exact ⟨_, _, by simp; exact ⟨rfl, rfl⟩⟩
    · obtain ⟨q, d, e⟩ := ih _ hks
      exact ⟨q, d, by rw [e]; simp⟩

theorem sendCell_eq (o : HalfByteOrder) (h : Half) (s : State) (j : Fin 7) :
    ∃ q d, sendCell o h s j =
      { s with
        lines := ⟨false, s.lines.ce, d⟩
        trace := s.trace ++ (cellBits s.fb[(order o h)[j.val].val]).flatMap bitEvents
        sequencer := some q } := by
  obtain ⟨q, d, e⟩ := foldl_sendBit o h j bitIndices s (by decide)
  refine ⟨q, d, ?_⟩
  rw [sendCell, e]
  simp [cellBits, List.flatMap_map, bitAt]

theorem foldl_sendCell (o : HalfByteOrder) (h : Half) (js : List (Fin 7)) (s : State) (hj : js ≠ []) :
    ∃ q d, js.foldl (sendCell o h) s =
      { s with
        lines := ⟨false, s.lines.ce, d⟩
        trace := s.trace ++ (js.flatMap fun j => cellBits s.fb[(order o h)[j.val].val]).flatMap bitEvents
        sequencer := some q } := by
  induction js generalizing s with
  | nil => exact absurd rfl hj
  | cons j js ih =>
    obtain ⟨q, d, e⟩ := sendCell_eq o h s j
    rw [List.foldl_cons, e]
    by_cases hjs : js = []
    · subst hjs
      exact ⟨q, d, by simp⟩
    · obtain ⟨q', d', e'⟩ := ih _ hjs
      exact ⟨q', d', by rw [e']; simp⟩

theorem halfBits_eq (o : HalfByteOrder) (h : Half) (fb : FrameBuffer) :
    halfBits o h fb = byteIndices.flatMap fun j => cellBits fb[(order o h)[j.val].val] := by
  cases o <;> cases h <;> simp [halfBits, order, byteIndices]

/-- One burst appends its 173 events and leaves every line at 0 and the sequencer idle (43_flush_serial.md R142). -/
theorem sendHalf_eq (o : HalfByteOrder) (h : Half) (s : State) :
    sendHalf o h s =
      { s with
        lines := ⟨false, false, false⟩
        trace := s.trace ++ halfEvents o h s.fb
        sequencer := none } := by
  obtain ⟨q, d, e⟩ := foldl_sendCell o h byteIndices (beginBurst s) (by decide)
  rw [sendHalf, e]
  simp [endBurst, beginBurst, drive, LineLevels.put, halfEvents, halfBits_eq]

/-- What a FLUSH leaves (R140): the injected cells, every line at 0, its 346 events appended, the sequencer idle, and nothing
else changed. -/
theorem flushWith_eq (o : HalfByteOrder) (s : State) :
    flushWith o s =
      { s with
        fb := injectFb s.fb
        lines := ⟨false, false, false⟩
        trace := s.trace ++ flushEvents o (injectFb s.fb)
        sequencer := none } := by
  simp [flushWith, sendHalf_eq, inject, flushEvents]

end Sys2Proof.Machine
end

