-- ==== Sys2Proof/Laws/Exec.lean ====
section
/-! SUPPORT. What a command, a word and a step can do, each said once as an inversion: if the answer is a next state, then one of
the named cases holds. -/

namespace Sys2Proof.Machine

/-- The next state of a command that executes, as a function of the state (42_framebuffer_commands.md, 43_flush_serial.md). -/
def effect : Instr → State → State
  | .erase, s => { s with fb := blankFb }
  | .setp pos pat, s => storeAtPosition pos (map pat) s
  | .setc pos ch, s => storeAtPosition pos (map (enc ch)) s
  | .flush, s => flushWith s.halfByteOrder s

theorem exec_eq (i : Instr) (s : State) : exec i s = whenAccepting s (.next (effect i s)) := by cases i <;> rfl

theorem exec_of_accepting {s : State} (h : Accepting s) (i : Instr) : exec i s = .next (effect i s) := by
  rw [exec_eq, whenAccepting_of_accepting h]

/-- A command answers a next state exactly when the block accepts, and the next state is its effect. -/
theorem exec_next {i : Instr} {s t : State} (h : exec i s = .next t) : Accepting s ∧ t = effect i s := by
  rw [exec_eq] at h
  obtain ⟨ha, e⟩ := whenAccepting_eq_next h
  exact ⟨ha, by injection e with e; exact e.symm⟩

/-- Everything a command's effect can be: one cell, a position fault, all cells blank, or a FLUSH. -/
theorem effect_cases (i : Instr) (s : State) :
    (i = .erase ∧ effect i s = { s with fb := blankFb }) ∨
      (∃ c v, (∃ pos, cellOf pos = some c ∧ ((∃ pat, i = .setp pos pat ∧ v = map pat) ∨ ∃ ch, i = .setc pos ch ∧ v = map (enc ch)))
        ∧ effect i s = writeCell c v s) ∨
      (i.legalPosition = false ∧ effect i s = raiseFault .positionRange s) ∨
      (i = .flush ∧ effect i s =
        { s with
          fb := injectFb s.fb
          lines := ⟨false, false, false⟩
          trace := s.trace ++ flushEvents s.halfByteOrder (injectFb s.fb)
          sequencer := none }) := by
  cases i with
  | erase => exact .inl ⟨rfl, rfl⟩
  | flush => exact .inr (.inr (.inr ⟨rfl, flushWith_eq _ s⟩))
  | setp pos pat =>
    rcases storeAtPosition_cases pos (map pat) s with ⟨h, e⟩ | ⟨h, e⟩
    · exact .inr (.inl ⟨_, _, ⟨pos, cellOf_legal h, .inl ⟨pat, rfl, rfl⟩⟩, e⟩)
    · exact .inr (.inr (.inl ⟨by simp [Instr.legalPosition]; omega, e⟩))
  | setc pos ch =>
    rcases storeAtPosition_cases pos (map (enc ch)) s with ⟨h, e⟩ | ⟨h, e⟩
    · exact .inr (.inl ⟨_, _, ⟨pos, cellOf_legal h, .inr ⟨ch, rfl, rfl⟩⟩, e⟩)
    · exact .inr (.inr (.inl ⟨by simp [Instr.legalPosition]; omega, e⟩))

/-- A word the block answers with a next state: a command's effect, or the entry of `IllegalCommand`. -/
theorem issue_next {w : Word} {s t : State} (h : issue w s = .next t) :
    Accepting s ∧ ((∃ i, decode w = .ok i ∧ t = effect i s) ∨
      (∃ r, decode w = .error r ∧ t = raiseFault .illegalCommand s)) := by
  unfold issue at h
  split at h
  · next i hi =>
    obtain ⟨ha, e⟩ := exec_next h
    exact ⟨ha, .inl ⟨i, hi, e⟩⟩
  · next r hr =>
    obtain ⟨ha, e⟩ := whenAccepting_eq_next h
    injection e with e
    exact ⟨ha, .inr ⟨r, hr, e.symm⟩⟩

/-- Everything a step that answers a next state can be: a reset, idle, a command's effect, or the entry of `IllegalCommand`. -/
theorem step_next {s t : State} (h : step s = .next t) :
    s.sequencer = none ∧
      ((resetDue s = true ∧ t = { resetBlock s with resets := s.resets.tail }) ∨
        (resetDue s = false ∧ nextWord s = none ∧ t = s) ∨
        ∃ w, resetDue s = false ∧ nextWord s = some w ∧ Accepting s ∧
          ((∃ i, decode w = .ok i ∧ t = effect i (advance s)) ∨
            (∃ r, decode w = .error r ∧ t = raiseFault .illegalCommand (advance s)))) := by
  unfold step at h
  split at h
  · next hd =>
    obtain ⟨hq, e⟩ := whenQuiet_eq_next h
    injection e with e
    exact ⟨hq, .inl ⟨hd, e.symm⟩⟩
  · next hd =>
    have hd : resetDue s = false := by simpa using hd
    split at h
    · next w hw =>
      obtain ⟨ha, c⟩ := issue_next h
      exact ⟨ha.2, .inr (.inr ⟨w, hd, hw, ha, c⟩)⟩
    · next hw =>
      obtain ⟨hq, e⟩ := whenQuiet_eq_next h
      injection e with e
      exact ⟨hq, .inr (.inl ⟨hd, hw, e.symm⟩)⟩

/-- A command at a legal position leaves an accepting block accepting. -/
theorem accepting_effect {s : State} (h : Accepting s) {i : Instr} (hl : i.legalPosition = true) : Accepting (effect i s) := by
  rcases effect_cases i s with ⟨-, e⟩ | ⟨c, v, -, e⟩ | ⟨hh, e⟩ | ⟨-, e⟩
  · rw [e]; exact h
  · rw [e]; exact h
  · rw [hl] at hh; cases hh
  · rw [e]; exact ⟨h.1, rfl⟩

/-- A command's effect depends on nothing of the host and of the resets to come, and keeps them. -/
theorem effect_host (i : Instr) (s : State) (p : List Word) (n : Nat) (rs : List Nat) :
    effect i { s with program := p, position := n, resets := rs } =
      { effect i s with program := p, position := n, resets := rs } := by
  cases i with
  | erase => rfl
  | flush => simp only [effect, flushWith_eq]
  | setp pos pat => simp only [effect, storeAtPosition]; split <;> rfl
  | setc pos ch => simp only [effect, storeAtPosition]; split <;> rfl

@[simp] theorem effect_program (i : Instr) (s : State) : (effect i s).program = s.program := by
  rcases effect_cases i s with ⟨-, e⟩ | ⟨c, v, -, e⟩ | ⟨-, e⟩ | ⟨-, e⟩ <;> rw [e] <;> rfl

@[simp] theorem effect_position (i : Instr) (s : State) : (effect i s).position = s.position := by
  rcases effect_cases i s with ⟨-, e⟩ | ⟨c, v, -, e⟩ | ⟨-, e⟩ | ⟨-, e⟩ <;> rw [e] <;> rfl

@[simp] theorem effect_resets (i : Instr) (s : State) : (effect i s).resets = s.resets := by
  rcases effect_cases i s with ⟨-, e⟩ | ⟨c, v, -, e⟩ | ⟨-, e⟩ | ⟨-, e⟩ <;> rw [e] <;> rfl

@[simp] theorem effect_halfByteOrder (i : Instr) (s : State) : (effect i s).halfByteOrder = s.halfByteOrder := by
  rcases effect_cases i s with ⟨-, e⟩ | ⟨c, v, -, e⟩ | ⟨-, e⟩ | ⟨-, e⟩ <;> rw [e] <;> rfl

/-- The host's run, one step unfolded, for any machine. -/
theorem core_run_succ (M : Host.Core) (k : Nat) (s : M.State) :
    M.run (k + 1) s = match M.step s with
      | .next s' => M.run k s'
      | .fault r => .fault r
      | .refused r => .refused r := rfl

/-- The host's run of `k + 1` steps: one step, then `k`. -/
theorem run_succ (k : Nat) (s : State) :
    Host.Core.run core (k + 1) s = andThen (step s) fun t => Host.Core.run core k t := by
  refine (core_run_succ core k s).trans ?_
  show _ = andThen (core.step s) _
  cases core.step s <;> rfl

/-- A command at an illegal position is a position fault. -/
theorem effect_illegal {i : Instr} (hl : i.legalPosition = false) (s : State) : effect i s = raiseFault .positionRange s := by
  cases i with
  | erase => cases hl
  | flush => cases hl
  | setp pos pat => exact storeAtPosition_illegal (Nat.lt_of_not_le (of_decide_eq_false hl)) _ _
  | setc pos ch => exact storeAtPosition_illegal (Nat.lt_of_not_le (of_decide_eq_false hl)) _ _

/-! ### Runs that fault -/

@[simp] theorem runFaults_zero (s : State) : RunFaults s 0 ↔ Faulted s := by
  constructor
  · rintro ⟨j, hj, u, hu, hf⟩
    obtain rfl : j = 0 := by omega
    injection hu with hu
    exact hu ▸ hf
  · exact fun hf => ⟨0, Nat.le_refl _, s, rfl, hf⟩

/-- A run whose first step answers `u` faults exactly when its first state is faulted or the run from `u` faults. -/
theorem runFaults_succ {s u : State} (hs : step s = .next u) (k : Nat) :
    RunFaults s (k + 1) ↔ Faulted s ∨ RunFaults u k := by
  constructor
  · rintro ⟨j, hj, v, hv, hf⟩
    cases j with
    | zero => injection hv with hv; exact .inl (hv ▸ hf)
    | succ j =>
      rw [run_succ, hs] at hv
      exact .inr ⟨j, by omega, v, hv, hf⟩
  · rintro (hf | ⟨j, hj, v, hv, hf⟩)
    · exact ⟨0, by omega, s, rfl, hf⟩
    · exact ⟨j + 1, by omega, v, by rw [run_succ, hs]; exact hv, hf⟩

/-- A run of `k + 1` steps that ended well: a first step from a state without a fault, and a run of `k` that ended well. -/
theorem runEndedWell_succ {s t : State} {k : Nat} :
    RunEndedWell s (k + 1) t ↔ ∃ u, step s = .next u ∧ ¬ Faulted s ∧ RunEndedWell u k t := by
  constructor
  · rintro ⟨hr, hp, ha, hf⟩
    rw [run_succ] at hr
    obtain ⟨u, hu, hr⟩ := andThen_eq_next hr
    rw [runFaults_succ hu, not_or] at hf
    exact ⟨u, hu, hf.1, hr, hp, ha, hf.2⟩
  · rintro ⟨u, hu, hf, hr, hp, ha, hfu⟩
    exact ⟨by rw [run_succ, hu]; exact hr, hp, ha, by rw [runFaults_succ hu]; exact not_or.mpr ⟨hf, hfu⟩⟩

end Sys2Proof.Machine
end

