-- ==== Sys2Proof/Laws/Observation.lean ====
section
/-! SUPPORT. The observer's functions over lists of events: levels, the receiver's scan and the order rule, each over an append
and over the events of one bit and one burst. -/

namespace Sys2Proof.Machine

/-! ### Levels -/

@[simp] theorem levelsAfter_nil (ls : LineLevels) : levelsAfter ls [] = ls := rfl

@[simp] theorem levelsAfter_cons (ls : LineLevels) (e : Event) (t : List Event) :
    levelsAfter ls (e :: t) = levelsAfter (ls.put e.1 e.2) t := rfl

@[simp] theorem levelsAfter_append (ls : LineLevels) (t u : List Event) :
    levelsAfter ls (t ++ u) = levelsAfter (levelsAfter ls t) u := by simp [levelsAfter]

/-- After the events of a run of bits CLK is where it was or 0, and CE is as before. -/
theorem levelsAfter_bits (bs : List Level) (c d : Level) :
    ∃ d', levelsAfter ⟨false, c, d⟩ (bs.flatMap bitEvents) = ⟨false, c, d'⟩ := by
  induction bs generalizing d with
  | nil => exact ⟨d, rfl⟩
  | cons b bs ih =>
    obtain ⟨d', e⟩ := ih b
    exact ⟨d', by simpa [bitEvents, LineLevels.put] using e⟩

/-- A burst leaves every line at 0 (43_flush_serial.md R147). -/
theorem levelsAfter_half (o : HalfByteOrder) (h : Half) (fb : FrameBuffer) (ls : LineLevels) :
    levelsAfter ls (halfEvents o h fb) = ⟨false, false, false⟩ := by
  obtain ⟨d, e⟩ := levelsAfter_bits (halfBits o h fb) true false
  simp [halfEvents, LineLevels.put, e]

theorem levelsAfter_flush (o : HalfByteOrder) (fb : FrameBuffer) (ls : LineLevels) :
    levelsAfter ls (flushEvents o fb) = ⟨false, false, false⟩ := by
  simp [flushEvents, levelsAfter_half]

/-! ### The order rule -/

theorem traceInOrder_append (ls : LineLevels) (t u : List Event) :
    traceInOrder ls (t ++ u) = (traceInOrder ls t && traceInOrder (levelsAfter ls t) u) := by
  induction t generalizing ls with
  | nil => simp [traceInOrder]
  | cons e t ih => simp [traceInOrder, ih, Bool.and_assoc]

theorem traceInOrder_bits (bs : List Level) (d : Level) : traceInOrder ⟨false, true, d⟩ (bs.flatMap bitEvents) = true := by
  induction bs generalizing d with
  | nil => rfl
  | cons b bs ih => simpa [bitEvents, traceInOrder, eventInOrder, LineLevels.put] using ih b

/-- A burst keeps the order rule from any levels (70_reset_and_hazards.md R231). -/
theorem traceInOrder_half (o : HalfByteOrder) (h : Half) (fb : FrameBuffer) (ls : LineLevels) :
    traceInOrder ls (halfEvents o h fb) = true := by
  obtain ⟨d, e⟩ := levelsAfter_bits (halfBits o h fb) true false
  simp [halfEvents, traceInOrder, traceInOrder_append, eventInOrder, LineLevels.put, traceInOrder_bits, e]

/-! ### The receiver's scan -/

theorem scanFrom_append (ls : LineLevels) (t u : List Event) :
    scanFrom ls (t ++ u) = u.foldl scanEvent (scanFrom ls t) := by simp [scanFrom]

/-- The scan's levels are the levels of the trace. -/
theorem foldl_scanEvent_levels (t : List Event) (sc : Scan) :
    (t.foldl scanEvent sc).levels = levelsAfter sc.levels t := by
  induction t generalizing sc with
  | nil => rfl
  | cons e t ih =>
    rw [List.foldl_cons, ih, levelsAfter_cons]
    congr 1
    simp only [scanEvent, Scan.sample, Scan.openBurst, Scan.closeBurst]
    split <;> split <;> split <;> rfl

/-- Inside an open burst with CLK at 0, each bit sent is one bit sampled. -/
theorem foldl_scanEvent_bits (bs : List Level) (d : Level) (cur : List Level) (out : List (List Level)) :
    ∃ d', (bs.flatMap bitEvents).foldl scanEvent ⟨⟨false, true, d⟩, true, cur, out⟩ =
      ⟨⟨false, true, d'⟩, true, cur ++ bs, out⟩ := by
  induction bs generalizing d cur with
  | nil => exact ⟨d, by simp⟩
  | cons b bs ih =>
    obtain ⟨d', e⟩ := ih b (cur ++ [b])
    refine ⟨d', ?_⟩
    simpa [bitEvents, scanEvent, Scan.sample, Scan.openBurst, Scan.closeBurst, LineLevels.put] using e

/-- One burst adds exactly its bits to the latched bursts, whatever was scanned before (43_flush_serial.md R150). -/
theorem foldl_scanEvent_half (o : HalfByteOrder) (h : Half) (fb : FrameBuffer) (sc : Scan) :
    (halfEvents o h fb).foldl scanEvent sc =
      ⟨⟨false, false, false⟩, false, halfBits o h fb, sc.out ++ [halfBits o h fb]⟩ := by
  obtain ⟨d, e⟩ := foldl_scanEvent_bits (halfBits o h fb) false [] sc.out
  have begun : [((.clk, false) : Event), (.dat, false), (.ce, true)].foldl scanEvent sc =
      ⟨⟨false, true, false⟩, true, [], sc.out⟩ := by
    simp [scanEvent, Scan.sample, Scan.openBurst, Scan.closeBurst, LineLevels.put]
  rw [halfEvents, List.foldl_append, List.foldl_append, begun, e]
  simp [scanEvent, Scan.sample, Scan.openBurst, Scan.closeBurst, LineLevels.put]

/-! ### Lengths -/

@[simp] theorem cellBits_length (v : Byte) : (cellBits v).length = 8 := rfl

theorem halfBits_length (o : HalfByteOrder) (h : Half) (fb : FrameBuffer) : (halfBits o h fb).length = 56 := by
  cases o <;> cases h <;> simp [halfBits, order]

theorem bits_length (bs : List Level) : (bs.flatMap bitEvents).length = 3 * bs.length := by
  induction bs with
  | nil => rfl
  | cons b bs ih => simp [bitEvents, ih]; omega

end Sys2Proof.Machine
end

