-- ==== Sys2Proof/Laws/PerInstr.lean ====
section
/-! SUPPORT. Per command: its encoding selects the row of the opcode map that bears its name. -/

namespace Sys2Proof.Laws.EncodesOwnRow

/-- The word of `i` has the fixed bits of the row with `i`'s mnemonic (30_encoding.md R66). -/
def Statement (i : Instr) : Prop := ∃ r ∈ opcodeTable, r.mnemonic = i.mnemonic ∧ r.selects (encode i) = true

theorem erase : Statement .erase := ⟨⟨"ERASE", 0x1000, 0xFFFF⟩, by simp [opcodeTable], rfl, by decide⟩

theorem setp (pos : Nat) (pat : Pattern) : Statement (.setp pos pat) := by
  refine ⟨⟨"SETP", 0x2000, 0xF080⟩, by simp [opcodeTable], rfl, beq_iff_eq.mpr ?_⟩
  refine BitVec.eq_of_getLsbD_eq fun i hi => ?_
  rw [encode_setp, BitVec.getLsbD_and, getLsbD_formatP]
  interval_cases i <;> simp

theorem setc (pos : Nat) (ch : Byte) : Statement (.setc pos ch) := by
  refine ⟨⟨"SETC", 0x3000, 0xF000⟩, by simp [opcodeTable], rfl, beq_iff_eq.mpr ?_⟩
  refine BitVec.eq_of_getLsbD_eq fun i hi => ?_
  rw [encode_setc, BitVec.getLsbD_and, getLsbD_formatC]
  interval_cases i <;> simp

theorem flush : Statement .flush := ⟨⟨"FLUSH", 0x4000, 0xFFFF⟩, by simp [opcodeTable], rfl, by decide⟩

end Sys2Proof.Laws.EncodesOwnRow
end

