-- ==== Sys2Proof/Machine/AsmText.lean ====
section
/-! DEFINITION. The assembler's text (30_encoding.md R70, R71): one line of characters to a source line.  Spaces and the spelling
of numbers are this model's choice (log entry 19); a line it does not know is refused. -/

namespace Sys2Proof.Machine

/-- The characters without the spaces at both ends. -/
def trimSpaces (cs : List Char) : List Char :=
  ((cs.dropWhile (· = ' ')).reverse.dropWhile (· = ' ')).reverse

/-- The digits of a base up to 16, each at the index of its value. -/
def digitsOf (base : Nat) : List Char := "0123456789ABCDEF".toList.take base

/-- A non-empty run of digits of a base, most significant first, letters in either case. -/
def numeral (base : Nat) (cs : List Char) : Option Nat :=
  if cs = [] then none
  else (cs.mapM fun c => (digitsOf base).idxOf? c.toUpper).map fun ds => Nat.ofDigits base ds.reverse

/-- A decimal number, as `pos` is written (R70). -/
def parseDecimal (cs : List Char) : Option Nat := numeral 10 (trimSpaces cs)

/-- A number written `0x` and hexadecimal digits, as `pat` and `ch` are written (R70). -/
def parseHex (cs : List Char) : Option Nat :=
  match trimSpaces cs with
  | '0' :: 'x' :: ds => numeral 16 ds
  | _ => none

/-- A `ch` operand: a hexadecimal number or a quoted character (R70). -/
def parseChar (cs : List Char) : Option CharOperand :=
  match trimSpaces cs with
  | ['\'', c, '\''] => some (.quoted c)
  | ds => (parseHex ds).map .code

/-- One byte value of a bracketed list, hexadecimal or decimal (R71). -/
def parseByte (cs : List Char) : Option Nat := (parseHex cs).or (parseDecimal cs)

/-- The byte values of a bracketed list, separated by commas. -/
def parseBytes (cs : List Char) : Option (List Nat) :=
  if trimSpaces cs = [] then some [] else (cs.splitOnP (· = ',')).mapM parseByte

/-- The text before a closing character that ends the list, if it does. -/
def upToLast (close : Char) : List Char → Option (List Char)
  | [] => none
  | [c] => if c = close then some [] else none
  | c :: cs => if c = close then none else (upToLast close cs).map (c :: ·)

/-- A text operand: a quoted string or a bracketed list (R71). -/
def parseText (cs : List Char) : Option TextOperand :=
  match trimSpaces cs with
  | '"' :: rest => (upToLast '"' rest).map .quoted
  | '[' :: rest => (upToLast ']' rest).bind fun b => (parseBytes b).map .bytes
  | _ => none

/-- The operands before and after the first comma (R70). -/
def splitComma (cs : List Char) : Option (List Char × List Char) :=
  match cs.span (· ≠ ',') with
  | (a, _ :: b) => some (a, b)
  | (_, []) => none

/-- One line of source: an upper-case mnemonic and its operands (R70, R71, R72). -/
def parseLine (cs : List Char) : Option AsmLine :=
  let (m, args) := (trimSpaces cs).span Char.isUpper
  if m = "ERASE".toList then if args = [] then some .erase else none
  else if m = "FLUSH".toList then if args = [] then some .flush else none
  else if m = "SETP".toList then do
    let (a, b) ← splitComma args
    return .setp (← parseDecimal a) (← parseHex b)
  else if m = "SETC".toList then do
    let (a, b) ← splitComma args
    return .setc (← parseDecimal a) (← parseChar b)
  else if m = "WRITE".toList then (parseText args).map .write
  else if m = "SHOW".toList then (parseText args).map .showText
  else none

end Sys2Proof.Machine
end

