-- ==== Sys2Proof/Tests/Slice0.lean ====
section
/-! SUPPORT. The model's own tests.  Every expected value comes from spec/: the vector's id in spec/95_test_vectors.md, or the rule
it is read from, stands in the test's comment.  The last part holds a witness for the hypotheses of every statement. -/

namespace Sys2Proof.Tests

open Sys2Proof Sys2Proof.Machine

/-- An accepting state with the given cells and no line high. -/
def withCells (fb : FrameBuffer) : State :=
  { fb := fb, lines := ⟨false, false, false⟩, status := 0b00, trace := [], sequencer := none,
    halfByteOrder := .descending, program := [], position := 0, resets := [] }

/-- The cells of vector T7. -/
def cellsT7 : FrameBuffer := #v[0xFF, 0, 0, 0, 0, 0, 0x07, 0, 0, 0, 0, 0, 0, 0x1E]

/-- A property of the next state, false of a stop. -/
def nextHas (r : Result) (p : State → Bool) : Bool :=
  match r with
  | .next s => p s
  | _ => false

/-- The outcome is the fault `stuck`. -/
def isStuck (r : Result) : Bool :=
  match r with
  | .fault .stuck => true
  | _ => false

/-- Everything but the status is as in `s` (60_exceptions.md R204). -/
def onlyStatus (s t : State) : Bool := decide ({ t with status := s.status } = s)

/-! ### Well-formedness: one ill-formed term for each check, which the check refuses -/

/-- 30_encoding.md R65: `pos` is 0..15. -/
theorem test_wellFormed_refuses_setp_position_16 : (Instr.setp 16 0).wellFormed = false := by decide
theorem test_wellFormed_refuses_setc_position_16 : (Instr.setc 16 0).wellFormed = false := by decide
/-- R68: positions 12..15 are encodable and name no position. -/
theorem test_position_12_encodable_not_legal :
    (Instr.setp 12 0).wellFormed = true ∧ (Instr.setp 12 0).legalPosition = false ∧
      (Instr.setc 15 0).wellFormed = true ∧ (Instr.setc 15 0).legalPosition = false := by decide
/-- R70: an assembler refuses `pos` > 15 and `pat` > 0x7F; a `ch` is a byte, a quoted character ASCII. -/
theorem test_assembler_refuses_position_16 : assemble (.setp 16 0) = none ∧ assemble (.setc 16 (.code 0)) = none := by decide
theorem test_assembler_refuses_pattern_0x80 : assemble (.setp 0 0x80) = none := by decide
theorem test_assembler_refuses_character_0x100 : assemble (.setc 0 (.code 0x100)) = none := by decide
theorem test_assembler_refuses_non_ascii_quote : assemble (.setc 0 (.quoted 'é')) = none := by decide
theorem test_assembler_refuses_non_byte_text :
    assemble (.write (.bytes [0x41, 0x100])) = none ∧ assemble (.showText (.quoted ['é'])) = none := by decide

/-! ### Decoding: words written out from the encodings of 30_encoding.md R66 (vectors X1 to X16) -/

theorem test_decode_erase : decode 0b0001000000000000 = .ok .erase := by rfl
theorem test_decode_setp : decode 0b0010101101111111 = .ok (.setp 11 0b1111111) := by rfl
theorem test_decode_setc : decode 0b0011101110000001 = .ok (.setc 11 0b10000001) := by rfl
theorem test_decode_flush : decode 0b0100000000000000 = .ok .flush := by rfl
/-- X1, X3, X6, X9, X14, X15, X16. -/
theorem test_decode_illegal :
    decode 0x0000 = .error .illegalOp ∧ decode 0x1001 = .error .operandBitsSet ∧ decode 0x2080 = .error .patternBit7Set ∧
      decode 0x2C80 = .error .patternBit7Set ∧ decode 0x4100 = .error .operandBitsSet ∧ decode 0x5000 = .error .illegalOp ∧
      decode 0xFFFF = .error .illegalOp := ⟨rfl, rfl, rfl, rfl, rfl, rfl, rfl⟩
/-- X7, X12: the host's numbering of a word. -/
theorem test_decodeTableWord :
    decodeTableWord 16 0x2B7F = some (.setp 11 0x7F) ∧ decodeTableWord 16 0x3FFF = some (.setc 15 0xFF) ∧
      decodeTableWord 16 0x5000 = none := by decide
theorem test_encode : encode .erase = 0x1000 ∧ encode (.setp 6 0x7F) = 0x267F ∧ encode (.setc 11 0xFF) = 0x3BFF ∧
    encode .flush = 0x4000 := by decide

/-! ### The encoder ROM and the mapper -/

/-- E2, E3, E4. -/
theorem test_enc_fallback : enc 0x7F = 0x5C ∧ enc 0x80 = 0x5C ∧ enc 0xFF = 0x5C := ⟨rfl, rfl, rfl⟩
/-- E1, E5: the last and the first stored entry. -/
theorem test_enc_stored : enc 0x7E = Config.encRom 126 ∧ enc 0x00 = Config.encRom 0 := ⟨rfl, rfl⟩
/-- M10, M11, M12; M1 to M9 are entries of the table of R115 below. -/
theorem test_map_bits : map 0x5C = 0x1E ∧ map 0x55 = 0x36 ∧ map 0x2A = 0x89 := by decide
/-- M13. -/
theorem test_unmap : unmap 0xBF = 0x7F ∧ unmap 0x1E = 0x5C := by decide

/-- The table of 41_segment_mapper.md R115, one numeral to a row: the 16 entries of the row as its hexadecimal digit pairs. -/
def mapTable : List Nat :=
  [0x002080A0022282A2082888A80A2A8AAA,
   0x103090B0123292B2183898B81A3A9ABA,
   0x012181A1032383A3092989A90B2B8BAB,
   0x113191B1133393B3193999B91B3B9BBB,
   0x042484A4062686A60C2C8CAC0E2E8EAE,
   0x143494B4163696B61C3C9CBC1E3E9EBE,
   0x052585A5072787A70D2D8DAD0F2F8FAF,
   0x153595B5173797B71D3D9DBD1F3F9FBF]

/-- Entry `k` of a row, the leftmost pair of digits first. -/
def rowEntry (row k : Nat) : Byte := BitVec.ofNat 8 (row / 256 ^ (15 - k))

theorem test_map_table : ∀ p : Pattern, mapTable[p.toNat / 16]?.map (fun row => rowEntry row (p.toNat % 16)) = some (map p) := by
  decide

/-! ### The commands, one step each -/

/-- F1. -/
theorem test_erase_clears_all_cells :
    nextHas (exec .erase (withCells cellsT7)) (fun t => decide (t = withCells blankFb)) = true := by decide
/-- F3, F4: positions 6 and 11 reach cells 6 and 1. -/
theorem test_setp_cell_of_position :
    nextHas (exec (.setp 6 0x7F) (withCells blankFb)) (fun t => decide (t = withCells (blankFb.set 6 0xBF))) = true ∧
      nextHas (exec (.setp 11 0x01) (withCells blankFb)) (fun t => decide (t = withCells (blankFb.set 1 0x20))) = true := by
  decide
/-- F5: the whole cell is replaced. -/
theorem test_setp_replaces_whole_cell :
    nextHas (exec (.setp 2 0x00) (withCells (blankFb.set 10 0xFF))) (fun t => decide (readCell t 10 = 0x00)) = true := by decide
/-- F6. -/
theorem test_setc_fallback_glyph :
    nextHas (exec (.setc 5 0x80) (withCells blankFb)) (fun t => decide (t = withCells (blankFb.set 7 0x1E))) = true := by decide
/-- F7: a stored character writes the mapped ROM entry. -/
theorem test_setc_stored_entry :
    exec (.setc 0 0x4F) (withCells blankFb) = .next (writeCell 12 (map (Config.encRom 0x4F)) (withCells blankFb)) := rfl
/-- J2, J3 (cells 6 and 13 of T7). -/
theorem test_inject :
    withControl ctrlA 0xFF = 0xFC ∧ withControl ctrlB 0xFF = 0xF9 ∧ withControl ctrlA 0x07 = 0x04 ∧
      withControl ctrlB 0x1E = 0x19 ∧ withControl ctrlA 0x1E = 0x1C := by decide
/-- T1, T3, T4, T5, T6: the number of events, the first eight, the gap between the bursts, the last three and the levels of a FLUSH
after ERASE. -/
theorem test_flush_trace :
    nextHas (exec .flush { withCells blankFb with lines := ⟨true, true, true⟩ }) (fun t => decide (
      t.trace.length = 346 ∧
        t.trace.take 8 = [(.clk, false), (.dat, false), (.ce, true), (.dat, false), (.clk, true), (.clk, false), (.dat, false),
          (.clk, true)] ∧
        (t.trace.drop 170).take 8 = [(.clk, false), (.dat, false), (.ce, false), (.clk, false), (.dat, false), (.ce, true),
          (.dat, false), (.clk, true)] ∧
        t.trace.drop 343 = [(.clk, false), (.dat, false), (.ce, false)] ∧ t.lines = ⟨false, false, false⟩)) = true := by
  decide +kernel
/-- T7, T8: the bursts under `Descending` are 04 00 00 00 00 00 FF and 19 00 00 00 00 00 00, under `Ascending`
FF 00 00 00 00 00 04 and 00 00 00 00 00 00 19. -/
theorem test_flush_bursts :
    let bits : List Byte → List Level := fun vs => vs.flatMap fun v => (List.range 8).map v.getMsbD
    nextHas (exec .flush (withCells cellsT7)) (fun t => decide (bursts t.trace =
        [bits [0x04, 0, 0, 0, 0, 0, 0xFF], bits [0x19, 0, 0, 0, 0, 0, 0]])) = true ∧
      nextHas (exec .flush { withCells cellsT7 with halfByteOrder := .ascending }) (fun t => decide (bursts t.trace =
        [bits [0xFF, 0, 0, 0, 0, 0, 0x04], bits [0, 0, 0, 0, 0, 0, 0x19]])) = true := by decide +kernel

/-! ### Faults, reset and the host's list -/

/-- G1. -/
theorem test_position_fault :
    nextHas (issue 0x2C00 (withCells cellsT7)) (fun t => decide (t.status = 0b01) && onlyStatus (withCells cellsT7) t) = true := by
  decide
/-- G2, X9. -/
theorem test_illegal_word_fault :
    nextHas (issue 0x0000 (withCells cellsT7)) (fun t => decide (t.status = 0b10) && onlyStatus (withCells cellsT7) t) = true ∧
      nextHas (issue 0x2C80 (withCells cellsT7)) (fun t => decide (t.status = 0b10)) = true := by decide
/-- G3. -/
theorem test_faulted_block_is_stuck :
    isStuck (issue 0x4000 { withCells cellsT7 with status := 0b01 }) = true ∧
      isStuck (issue 0x0000 { withCells cellsT7 with status := 0b10 }) = true := by decide
/-- G4, with the reset before the first word. -/
theorem test_reset_clears_fault :
    step { withCells cellsT7 with status := 0b01, program := [0x1000], resets := [0] } =
      .next { State.reset with program := [0x1000] } := rfl
/-- R220: a reset that comes after one word waits for it. -/
theorem test_reset_waits_for_its_word :
    nextHas (step { withCells cellsT7 with program := [0x1000], resets := [1] })
      (fun t => decide (t.fb = blankFb ∧ t.position = 1 ∧ resetDue t = true)) = true := by decide
/-- The first step after reset with a word placed runs that word (X5: SETP 0, 0x7F writes 0xBF to cell 12). -/
theorem test_first_step_runs_placed_word :
    nextHas (step (State.reset.withFetchWord 16 0x207F)) (fun t => decide (readCell t 12 = 0xBF ∧ t.position = 1)) = true := by
  decide
/-- Vector P5's FLUSH: issued to the faulted block it has no step (R205). -/
theorem test_step_stuck :
    isStuck (step { withCells blankFb with status := 0b01, program := [0x1000, 0x2C7F, 0x4000], position := 2 }) = true := by decide

/-! ### The pseudo-commands and the assembler's text -/

/-- W1, W2, W5 and S8's words. -/
theorem test_write_words :
    assemble (.write (.quoted [])) = some [] ∧ assemble (.write (.bytes [0x80])) = some [0x3080] ∧
      assemble (.write (.quoted ['A', 'B', 'C'])) = some [0x3041, 0x3142, 0x3243] ∧
      assemble (.showText (.quoted ['O', 'K'])) = some [0x1000, 0x304F, 0x314B, 0x4000] := by decide
/-- W3, W4: thirteen bytes give the same twelve words. -/
theorem test_write_truncates :
    writeInstrs (List.replicate 13 0xFF) = writeInstrs (List.replicate 12 0xFF) ∧
      (writeInstrs (List.replicate 13 0xFF)).getLast? = some (.setc 11 0xFF) := by decide
/-- Lines as R70 writes them, and the program lines of 95_test_vectors.md P2, P3. -/
theorem test_parse_lines :
    parseLine "ERASE".toList = some .erase ∧ parseLine "SETP 11, 0x01".toList = some (.setp 11 1) ∧
      parseLine "SETC 0, 0x80".toList = some (.setc 0 (.code 0x80)) ∧
      parseLine "SETC 1, 'K'".toList = some (.setc 1 (.quoted 'K')) ∧
      parseLine "WRITE [0x80, 0xFF, 0x7F]".toList = some (.write (.bytes [0x80, 0xFF, 0x7F])) ∧
      parseLine "SHOW \"OK\"".toList = some (.showText (.quoted ['O', 'K'])) ∧ parseLine "FLUSH".toList = some .flush := by
  decide
/-- Lower case and a missing comma are no line of R70. -/
theorem test_parse_refuses :
    parseLine "erase".toList = none ∧ parseLine "SETP 1 0x01".toList = none ∧ parseLine "ERASE 1".toList = none := by decide

/-! ### Witnesses: a concrete state and operands for the hypotheses of every statement that has any -/

/-- A faulted state. -/
def faultedState : State := { withCells cellsT7 with status := 0b01 }

theorem accepting_withCells (fb : FrameBuffer) : Accepting (withCells fb) := ⟨rfl, rfl⟩
theorem faulted_faultedState : Faulted faultedState := ⟨.inl rfl, rfl⟩

/-- Accepting states exist: for EraseClearsEveryCell, SetpStoresMappedPattern, SetcStoresEncodedCharacter,
CommandsWriteWholeCellsOrControlBits, FlushInjectsAndSends, FlushDrivesEventsInOrder, FlushContributesTwoBursts,
SecondFlushRepeatsTheFirst, Position6GlyphIsOverloaded, EraseThenFlushSendsOnlyControlBits, OnlyPositionRangeFaultsACommand,
WriteStoresTheText, WriteDoesNotClear, WriteTruncatesAndEmptyTextFlushes and ShowSendsTheText. -/
theorem witness_accepting : Accepting (withCells cellsT7) ∧ Accepting State.reset := ⟨⟨rfl, rfl⟩, ⟨rfl, rfl⟩⟩
/-- The two clauses on positions of the SETP and SETC statements, at their boundaries 11 and 12. -/
theorem witness_position_clauses : (11 ≤ 11 ∧ ¬ 12 ≤ 11) ∧ (12 ≤ 12 ∧ ¬ 12 ≤ 11) ∧ cellOf 11 = some 1 ∧ cellOf 12 = none := by
  decide
/-- The two clauses on the cell order of FlushContributesTwoBursts. -/
theorem witness_cell_orders :
    (∃ s : State, Accepting s ∧ s.halfByteOrder = .descending) ∧ ∃ s : State, Accepting s ∧ s.halfByteOrder = .ascending :=
  ⟨⟨withCells cellsT7, ⟨rfl, rfl⟩, rfl⟩, ⟨{ withCells cellsT7 with halfByteOrder := .ascending }, ⟨rfl, rfl⟩, rfl⟩⟩
/-- InPlaceAndCopyInjectionAreIndistinguishable: two states that differ in a control bit. -/
theorem witness_SameButControl : SameButControl (withCells blankFb) (withCells (blankFb.set 6 0x04)) ∧
    withCells blankFb ≠ withCells (blankFb.set 6 0x04) := ⟨⟨by decide, rfl⟩, by decide⟩
/-- The decode premises of EraseClearsEveryCell, SetpStoresMappedPattern and SetcStoresEncodedCharacter. -/
theorem witness_decoded_words :
    decode 0x1000 = .ok .erase ∧ decode 0x2040 = .ok (.setp 0 0x40) ∧ decode 0x30FF = .ok (.setc 0 0xFF) := ⟨rfl, rfl, rfl⟩
/-- EraseClearsEveryCell (its last clause) and ChangesBetweenFlushesAreLocal: a command that is no ERASE and no FLUSH. -/
theorem witness_no_erase_no_flush : ∃ t, exec (.setp 0 0x40) (withCells cellsT7) = .next t := ⟨_, rfl⟩
theorem witness_DecodeOfEncodeIsIdentity : (Instr.setp 15 0x7F).wellFormed = true ∧ (Instr.setc 0 0xFF).wellFormed = true := by
  decide
theorem witness_EncodeOfDecodeIsIdentity : decode 0x3FFF = .ok (.setc 15 0xFF) := rfl
theorem witness_DecoderAgreesWithOpcodeMap : (⟨"SETC", 0x3000, 0xF000⟩ : OpcodeRow) ∈ opcodeTable := by decide
theorem witness_EncReturnsEntryOrFallback : 0x7F ≤ (0x7F : Byte).toNat ∧ 0x7F ≤ (0xFF : Byte).toNat := by decide
theorem witness_MapIsBijectiveOntoBit6Clear : (0xBF : Byte).getLsbD 6 = false := by decide
/-- PositionsHaveDistinctCells, clause by clause at the boundaries 5, 6, 11 and 12. -/
theorem witness_PositionsHaveDistinctCells :
    cellOf 0 = some 12 ∧ cellOf 5 = some 7 ∧ cellOf 6 = some 6 ∧ cellOf 11 = some 1 ∧ cellOf 12 = none := by decide
theorem witness_CellsChangeOnlyByTheirWriters :
    ∃ t, exec .erase (withCells cellsT7) = .next t ∧ readCell t 0 ≠ readCell (withCells cellsT7) 0 :=
  ⟨withCells blankFb, rfl, by decide⟩
theorem witness_FrameBufferWritesAreIdempotent :
    Accepting (withCells cellsT7) ∧ (Instr.setp 11 0x7F).legalPosition = true ∧ Instr.setp 11 0x7F ≠ .flush :=
  ⟨⟨rfl, rfl⟩, by decide, by decide⟩
/-- CommandsWriteWholeCellsOrControlBits: its FLUSH clauses on bits at the boundary 2, 3, in cells 6, 13 and 12. -/
theorem witness_flush_bit_clauses :
    nextHas (exec .flush (withCells cellsT7)) (fun t => decide (
      (readCell t 6).getLsbD 2 = true ∧ (readCell t 6).getLsbD 3 = false ∧ (readCell t 13).getLsbD 2 = false ∧
        (readCell t 13).getLsbD 3 = true ∧ (readCell t 12).getLsbD 2 = false)) = true := by decide +kernel
/-- FlushEventsDependOnlyOnCells: two accepting states that differ in lines, trace and a control bit. -/
theorem witness_FlushEventsDependOnlyOnCells :
    ∃ s t : State, s ≠ t ∧ Accepting s ∧ Accepting t ∧ s.halfByteOrder = t.halfByteOrder ∧
      (∀ c : Fin 14, c ≠ 6 → c ≠ 13 → readCell s c = readCell t c) ∧
      readCell s 6 &&& 0xF8 = readCell t 6 &&& 0xF8 ∧ readCell s 13 &&& 0xF8 = readCell t 13 &&& 0xF8 :=
  ⟨withCells blankFb, { withCells (blankFb.set 6 0x07) with lines := ⟨true, true, true⟩, trace := [(.ce, true)] },
    by decide, ⟨rfl, rfl⟩, ⟨rfl, rfl⟩, rfl, by decide, by decide, by decide⟩
/-- NoCommandTransfersControl, StepTouchesLinesOnlyAtFlushOrReset, TraceOnlyGrowsUntilReset and StepKeepsTheOrderAndTheWords: a step
that runs a FLUSH, and a step that takes a reset. -/
theorem witness_step_runs_flush :
    ∃ s t : State, resetDue s = false ∧ nextWord s ≠ none ∧ step s = .next t ∧ t.trace ≠ s.trace :=
  ⟨{ withCells blankFb with program := [0x4000] }, _, rfl, by decide, rfl, by decide +kernel⟩
theorem witness_step_takes_reset : ∃ s t : State, resetDue s = true ∧ step s = .next t ∧ t.trace ≠ s.trace :=
  ⟨{ withCells blankFb with trace := [(.ce, true)], resets := [0] }, _, rfl, rfl, by decide⟩
theorem witness_PositionFaultEntryIsPrecise : Accepting (withCells cellsT7) ∧ 12 ≤ 12 := ⟨⟨rfl, rfl⟩, by decide⟩
theorem witness_IllegalWordFaultEntryIsPrecise :
    Accepting (withCells cellsT7) ∧ decode 0x2C80 = .error .patternBit7Set := ⟨⟨rfl, rfl⟩, rfl⟩
theorem witness_FaultedBlockHasNoStep :
    ∃ s : State, Faulted s ∧ resetDue s = false ∧ nextWord s ≠ none :=
  ⟨{ faultedState with program := [0x4000] }, ⟨.inl rfl, rfl⟩, rfl, by decide⟩
/-- OnlyResetLeavesTheFault: both of its cases. -/
theorem witness_OnlyResetLeavesTheFault :
    (∃ t, Faulted faultedState ∧ step faultedState = .next t) ∧
      ∃ s t : State, Faulted s ∧ step s = .next t ∧ resetDue s = true :=
  ⟨⟨_, ⟨.inl rfl, rfl⟩, rfl⟩, ⟨{ faultedState with resets := [0] }, _, ⟨.inl rfl, rfl⟩, rfl, rfl⟩⟩
/-- ResetEventClearsTheBlock: a reset at the boundary, after as many words as were issued, of a faulted block. -/
theorem witness_ResetEventClearsTheBlock :
    ∃ s : State, s.sequencer = none ∧ s.resets = 1 :: [4] ∧ 1 ≤ s.position ∧ s.status = 0b10 :=
  ⟨{ withCells cellsT7 with status := 0b10, program := [0x0000, 0x1000], position := 1, resets := [1, 4] }, rfl, rfl,
    by decide, rfl⟩
theorem witness_IllFormedStatesAreRefused :
    (∃ s : State, s.sequencer = none ∧ s.status = 0b11) ∧ ∃ s : State, s.sequencer = some ⟨.b, 6, 0⟩ :=
  ⟨⟨{ withCells cellsT7 with status := 0b11 }, rfl, rfl⟩, ⟨{ withCells cellsT7 with sequencer := some ⟨.b, 6, 0⟩ }, rfl⟩⟩
theorem witness_StepRunsTheDecodedCommand :
    ∃ s : State, resetDue s = false ∧ s.program[s.position]? = some 0x2B7F ∧ decode 0x2B7F = .ok (.setp 11 0x7F) :=
  ⟨{ withCells cellsT7 with program := [0x1000, 0x2B7F], position := 1, resets := [2] }, rfl, rfl, rfl⟩
theorem witness_StepWithoutMoveIsIdle : State.reset.sequencer = none ∧ resetDue State.reset = false ∧
    State.reset.program.length ≤ State.reset.position := by decide
theorem witness_PlacedWordIsTheNextCommand : decodeTableWord 16 0x3BFF = some (.setc 11 0xFF) := by decide
theorem witness_LegalCommandListEndsWell :
    ∃ (is : List Instr) (s : State), is.length = 3 ∧ (∀ i ∈ is, i.legalPosition = true) ∧ Accepting s ∧
      s.resets = [] ∧ s.program = is.map encode ∧ s.position = 0 :=
  ⟨[.erase, .setp 11 0x01, .flush], { withCells cellsT7 with program := [0x1000, 0x2B01, 0x4000] }, rfl, by decide,
    ⟨rfl, rfl⟩, rfl, by decide, rfl⟩
/-- FaultedRunNeverEndsWell, first clause: both kinds of faulting words, still to be issued, one of them before a reset. -/
theorem witness_FaultedRunNeverEndsWell_word :
    FaultingWord 0x0000 ∧ FaultingWord 0x2C00 ∧
      ∃ s : State, s.position ≤ 1 ∧ s.program[1]? = some 0x2C00 ∧ s.resets = [2] ∧ Accepting s :=
  ⟨.inl ⟨_, rfl⟩, .inr ⟨_, rfl, rfl⟩,
    { withCells cellsT7 with program := [0x1000, 0x2C00, 0x1000], resets := [2] }, by decide, rfl, rfl, ⟨rfl, rfl⟩⟩
/-- FaultedRunNeverEndsWell, second clause: the list 0x0000, 0x1000 with a reset after the first word reaches the fault in one step,
and reaches the end of the list on an accepting block in three. -/
theorem witness_FaultedRunNeverEndsWell_reset :
    ∃ s u t : State, Host.Core.run core 1 s = .next u ∧ Faulted u ∧ Host.Core.run core 3 s = .next t ∧
      t.position = t.program.length ∧ Accepting t :=
  ⟨{ withCells cellsT7 with program := [0x0000, 0x1000], resets := [1] }, _, _, rfl, ⟨.inr rfl, rfl⟩, rfl, rfl, ⟨rfl, rfl⟩⟩
theorem witness_WriteTruncates : 12 < (List.replicate 13 (0xFF : Byte)).length := by decide
/-- WriteDoesNotClear: cells 0 and 13, and cell 9 for a text of three bytes, whose position 3 it does not reach. -/
theorem witness_WriteDoesNotClear : ([0x41, 0x42, 0x43] : List Byte).length ≤ 12 - (9 : Fin 14).val := by decide
theorem witness_WriteOrderIsNotObservable :
    Accepting (withCells cellsT7) ∧ [Instr.setc 1 0x42, Instr.setc 0 0x41].Perm (writeInstrs [0x41, 0x42]) :=
  ⟨⟨rfl, rfl⟩, List.Perm.swap _ _ _⟩
/-- EveryStepKeepsBlockInvariant: a state that meets the invariant and steps. -/
theorem witness_EveryStepKeepsBlockInvariant :
    ∃ s t : State, Inv s ∧ step s = .next t ∧ t ≠ s :=
  ⟨{ State.reset with program := [0x1000] }, { State.reset with fb := blankFb, program := [0x1000], position := 1 },
    { status := by decide, quiet := rfl, position := by decide, lines := rfl, flushes := ⟨[], rfl, by simp⟩, inOrder := rfl,
      unreached := ⟨.inr rfl, .inr rfl⟩, unmapped := fun c => .inr (congrArg (·.getLsbD 6) (initialFb_get c)) },
    rfl, fun h => absurd (congrArg State.position h) (by decide)⟩

end Sys2Proof.Tests
end

/-! PROOFS. What one step keeps of the machine's argument and of the host's list (00_scope.md R3, R4, R11). -/

namespace Sys2Proof.Machine

/-- Settles O52, by the inversion of a step: a reset takes the first reset to come, an idle step changes nothing, and an issued
word advances the position, whether the block answers it with a command's effect or with the entry of `IllegalCommand`. -/
theorem stepKeepsTheOrderAndTheWords : Obligations.StepKeepsTheOrderAndTheWords := by
  intro s t h
  obtain ⟨-, ⟨hdue, rfl⟩ | ⟨-, -, rfl⟩ | ⟨w, -, -, -, ⟨i, -, rfl⟩ | ⟨r, -, rfl⟩⟩⟩ := step_next h
  · obtain ⟨n, rest, hresets, -⟩ := resetDue_iff.mp hdue
    exact ⟨rfl, rfl, .inr (.inr ⟨rfl, n, by simp [hresets]⟩)⟩
  · exact ⟨rfl, rfl, .inr (.inl ⟨rfl, rfl⟩)⟩
  · exact ⟨by simp, by simp, .inl (by simp)⟩
  · exact ⟨rfl, rfl, .inl ⟨rfl, rfl⟩⟩

end Sys2Proof.Machine

/-! PROOFS. The invariant of the block (10_state.md R22, R24, R25, R27, R31): it holds after reset, and every step keeps it. -/

namespace Sys2Proof.Machine

/-! ### The bits and cells no command reaches -/

/-- A round of the mapper sets no other bit than that of its offset. -/
theorem mapRound_getLsbD_of_ne (p : Pattern) (out : Byte) {i offset k : Nat} (h : k ≠ offset) :
    (mapRound p out (i, offset)).getLsbD k = out.getLsbD k := by
  have hbit : (1#8 <<< offset).getLsbD k = false := by
    simp [BitVec.getLsbD_one]; omega
  unfold mapRound
  split
  · simp [BitVec.getLsbD_or, hbit]
  · rfl

/-- Rounds set no other bits than those of their offsets. -/
theorem foldl_mapRound_getLsbD_of_ne (p : Pattern) {k : Nat} (rounds : List (Nat × Nat)) (h : ∀ r ∈ rounds, k ≠ r.2)
    (out : Byte) : (rounds.foldl (mapRound p) out).getLsbD k = out.getLsbD k := by
  induction rounds generalizing out with
  | nil => rfl
  | cons r rounds ih =>
    obtain ⟨hr, hrounds⟩ := List.forall_mem_cons.mp h
    rw [List.foldl_cons, ih hrounds, mapRound_getLsbD_of_ne p out hr]

/-- No offset is 6, so the mapper never sets bit 6 (41_segment_mapper.md R112). -/
theorem map_bit6 (p : Pattern) : (map p).getLsbD 6 = false :=
  foldl_mapRound_getLsbD_of_ne p _ (by decide) 0

/-- The control mask keeps bit 6. -/
theorem bit6_eq_of_masked_eq {a b : Byte} (h : a &&& ctrlMask = b &&& ctrlMask) : a.getLsbD 6 = b.getLsbD 6 := by
  have hmask : ctrlMask.getLsbD 6 = true := by decide
  have hbit : (a &&& ctrlMask).getLsbD 6 = (b &&& ctrlMask).getLsbD 6 := by rw [h]
  simpa only [BitVec.getLsbD_and, hmask, Bool.and_true] using hbit

/-- The injection keeps bits 7..3 of every cell (43_flush_serial.md R141). -/
theorem injectFb_masked (fb : FrameBuffer) (c : Fin 14) : (injectFb fb)[c.val] &&& ctrlMask = fb[c.val] &&& ctrlMask := by
  rw [injectFb_get]
  split
  · exact withControl_high ctrlA _ ctrlA_low
  · split
    · exact withControl_high ctrlB _ ctrlB_low
    · rfl

/-- The injection keeps every cell but the two control cells. -/
theorem injectFb_get_other (fb : FrameBuffer) {c : Fin 14} (h6 : c ≠ 6) (h13 : c ≠ 13) :
    (injectFb fb)[c.val] = fb[c.val] := by simp [injectFb_get, h6, h13]

/-- The cell of a position is neither cell 0 nor cell 13 (10_state.md R22). -/
theorem cellOf_reaches {pos : Nat} {c : Fin 14} (h : cellOf pos = some c) : c ≠ 0 ∧ c ≠ 13 := by
  obtain ⟨hpos, hc⟩ := cellOf_eq_some.mp h
  constructor <;> rintro rfl <;> simp at hc <;> omega

/-! ### Each operation keeps the invariant -/

section
variable {s : State}

/-- A reset event meets the invariant whatever the block held before; of the host it needs the position inside the list. -/
theorem inv_resetBlock (hpos : s.position ≤ s.program.length) (later : List Nat) :
    Inv { resetBlock s with resets := later } where
  status := show statusNone ≠ statusReserved by decide
  quiet := rfl
  position := hpos
  lines := rfl
  flushes := ⟨[], rfl, by simp⟩
  inOrder := rfl
  unreached := ⟨.inr (initialFb_get 0), .inr (congrArg (· &&& ctrlMask) (initialFb_get 13))⟩
  unmapped c := .inr (congrArg (·.getLsbD 6) (initialFb_get c))

theorem inv_advance (h : Inv s) {w : Word} (hw : nextWord s = some w) : Inv (advance s) where
  __ := h
  position := nextWord_lt hw

/-- No fault produces the reserved status (10_state.md R25). -/
theorem code_ne_statusReserved (kind : FaultKind) : kind.code ≠ statusReserved := by cases kind <;> decide

theorem inv_raiseFault (h : Inv s) (kind : FaultKind) : Inv (raiseFault kind s) where
  __ := h
  status := code_ne_statusReserved kind

/-- New cells that respect the unreached cells and bits keep the invariant: the rest of it does not speak of the cells. -/
theorem inv_setCells (h : Inv s) {fb : FrameBuffer} (hunreached : UnreachedCells { s with fb := fb })
    (hunmapped : UnmappedBit { s with fb := fb }) : Inv { s with fb := fb } where
  __ := h
  unreached := hunreached
  unmapped := hunmapped

theorem inv_erase (h : Inv s) : Inv { s with fb := blankFb } := by
  refine inv_setCells h ⟨.inl (readCell_blank s 0), .inl ?_⟩ fun c => .inl ?_
  · rw [readCell_blank]; decide
  · rw [readCell_blank]; decide

/-- A byte of the mapper, stored at the cell of a position, keeps the invariant. -/
theorem inv_writeCell (h : Inv s) {pos : Nat} {c : Fin 14} (hc : cellOf pos = some c) (p : Pattern) :
    Inv (writeCell c (map p) s) := by
  obtain ⟨h0, h13⟩ := cellOf_reaches hc
  have hunreached : UnreachedCells (writeCell c (map p) s) := by
    unfold UnreachedCells
    rw [readCell_writeCell_other _ _ h0.symm, readCell_writeCell_other _ _ h13.symm]
    exact h.unreached
  have hunmapped : UnmappedBit (writeCell c (map p) s) := by
    intro d
    rw [readCell_writeCell]
    split
    · exact .inl (map_bit6 p)
    · exact h.unmapped d
  exact inv_setCells h hunreached hunmapped

theorem inv_inject (h : Inv s) : Inv (inject s) := by
  refine inv_setCells h ?_ fun c => ?_
  · have hzero : (injectFb s.fb)[(0 : Fin 14).val] = readCell s 0 := injectFb_get_other s.fb (by decide) (by decide)
    have hcontrol : (injectFb s.fb)[(13 : Fin 14).val] &&& ctrlMask = readCell s 13 &&& ctrlMask := injectFb_masked s.fb 13
    simp only [UnreachedCells, readCell_mk, hzero, hcontrol]
    exact h.unreached
  · have hbit : ((injectFb s.fb)[c.val]).getLsbD 6 = (readCell s c).getLsbD 6 :=
      bit6_eq_of_masked_eq (injectFb_masked s.fb c)
    simp only [readCell_mk, hbit]
    exact h.unmapped c

/-- The bursts of cells that hold both control values keep the invariant: one more whole FLUSH, in the order of R231, after which
every line is 0. -/
theorem inv_sendCells (h : Inv s) (hinjected : injectFb s.fb = s.fb) :
    Inv { s with
      lines := ⟨false, false, false⟩
      trace := s.trace ++ flushEvents s.halfByteOrder s.fb
      sequencer := none } where
  __ := h
  quiet := rfl
  lines := by simp [LinesMatchTrace, levelsAfter_flush]
  flushes := by
    obtain ⟨frames, htrace, hframes⟩ := h.flushes
    refine ⟨frames ++ [s.fb], by simp [htrace], fun f hf => ?_⟩
    rcases List.mem_append.mp hf with hf | hf
    · exact hframes f hf
    · rw [List.mem_singleton.mp hf, hinjected]
  inOrder := by
    simp [traceInOrder_append, h.inOrder, flushEvents, traceInOrder_half]

theorem inv_effect (h : Inv s) (i : Instr) : Inv (effect i s) := by
  rcases effect_cases i s with ⟨-, e⟩ | ⟨c, v, ⟨pos, hc, ⟨p, -, rfl⟩ | ⟨ch, -, rfl⟩⟩, e⟩ | ⟨-, e⟩ | ⟨-, e⟩ <;> rw [e]
  · exact inv_erase h
  · exact inv_writeCell h hc p
  · exact inv_writeCell h hc (enc ch)
  · exact inv_raiseFault h .positionRange
  · exact inv_sendCells (inv_inject h) (injectFb_idem s.fb)

end

/-- Settles O3, by the inversion of a step: a reset, an idle step, and an issued word answered by a command's effect or by the entry
of `IllegalCommand` each keep the invariant. -/
theorem everyStepKeepsBlockInvariant : Obligations.EveryStepKeepsBlockInvariant := by
  intro s t h hstep
  obtain ⟨-, ⟨-, rfl⟩ | ⟨-, -, rfl⟩ | ⟨w, -, hw, -, ⟨i, -, rfl⟩ | ⟨r, -, rfl⟩⟩⟩ := step_next hstep
  · exact inv_resetBlock h.position s.resets.tail
  · exact h
  · exact inv_effect (inv_advance h hw) i
  · exact inv_raiseFault (inv_advance h hw) .illegalCommand

/-- Settles O2: the reset state is what a reset event leaves of itself. -/
theorem resetMeetsBlockInvariant : Obligations.ResetMeetsBlockInvariant :=
  inv_resetBlock (s := State.reset) (Nat.le_refl 0) []

/-- Settles O1: the reset state's fields as they are written, the cells and lines read out of `FB_INIT` and `LINES_INIT`. -/
theorem resetLeavesDecidedState : Obligations.ResetLeavesDecidedState :=
  ⟨rfl, rfl, rfl, initialFb_get, fun l => by cases l <;> rfl, rfl⟩

end Sys2Proof.Machine

/-! PROOFS. What changes the cells and the trace (10_state.md R21, R28). -/

namespace Sys2Proof.Machine

/-- Settles O17, by the cases of a command's effect: ERASE may change any cell, a store changes the cell of its position only, a
fault changes no cell, and the injection of a FLUSH changes the two control cells only. -/
theorem cellsChangeOnlyByTheirWriters : Obligations.CellsChangeOnlyByTheirWriters := by
  intro i s t c hexec hne
  obtain ⟨-, rfl⟩ := exec_next hexec
  rcases effect_cases i s with ⟨rfl, -⟩ | ⟨d, v, ⟨pos, hd, hi⟩, e⟩ | ⟨-, e⟩ | ⟨rfl, e⟩
  · exact .inl rfl
  · obtain rfl : c = d := by
      by_contra hcd
      exact hne (by rw [e, readCell_writeCell_other v s hcd])
    obtain ⟨hpos, hc⟩ := cellOf_eq_some.mp hd
    obtain ⟨pat, rfl, -⟩ | ⟨ch, rfl, -⟩ := hi
    · exact .inr (.inl ⟨pos, pat, rfl, hpos, hc⟩)
    · exact .inr (.inr (.inl ⟨pos, ch, rfl, hpos, hc⟩))
  · exact absurd (by rw [e]; rfl) hne
  · refine .inr (.inr (.inr ⟨rfl, ?_⟩))
    by_contra hc
    obtain ⟨h6, h13⟩ := not_or.mp hc
    exact hne (by rw [e]; exact injectFb_get_other s.fb h6 h13)

/-- A command removes and reorders no event: a FLUSH appends, every other command keeps the trace. -/
theorem trace_prefix_effect (i : Instr) (s : State) : s.trace <+: (effect i s).trace := by
  rcases effect_cases i s with ⟨-, e⟩ | ⟨c, v, -, e⟩ | ⟨-, e⟩ | ⟨-, e⟩ <;> simp [e]

/-- Settles O35, by the inversion of a step: a reset empties the trace, and every other step keeps or extends it. -/
theorem traceOnlyGrowsUntilReset : Obligations.TraceOnlyGrowsUntilReset := by
  intro s t hstep
  obtain ⟨-, ⟨hdue, rfl⟩ | ⟨-, -, rfl⟩ | ⟨w, -, -, -, ⟨i, -, rfl⟩ | ⟨r, -, rfl⟩⟩⟩ := step_next hstep
  · exact .inr ⟨hdue, rfl⟩
  · exact .inl List.prefix_rfl
  · exact .inl (trace_prefix_effect i (advance s))
  · exact .inl List.prefix_rfl

end Sys2Proof.Machine

/-! PROOFS. Which command a step runs (10_state.md R27, 30_encoding.md R66), and the states no step leaves
(93_implementation_defined.md I8, I9). -/

namespace Sys2Proof.Machine

/-! ### A word that decodes -/

theorem issue_of_decode {w : Word} {i : Instr} (h : decode w = .ok i) (s : State) : issue w s = exec i s := by
  simp [issue, h]

theorem step_of_nextWord {s : State} {w : Word} (hdue : resetDue s = false) (hw : nextWord s = some w) :
    step s = issue w (advance s) := by
  simp [step, hdue, hw]

theorem decode_of_decodeTableWord {nbits w : Nat} {i : Instr} (h : decodeTableWord nbits w = some i) :
    decode (tableWord nbits w) = .ok i := by
  unfold decodeTableWord at h
  cases hd : decode (tableWord nbits w) with
  | ok j => rw [hd] at h; injection h with h; rw [h]
  | error r => rw [hd] at h; cases h

/-- Settles O42: with no reset due the next word is issued, and a word that decodes is answered by its command. -/
theorem stepRunsTheDecodedCommand : Obligations.StepRunsTheDecodedCommand := by
  intro s w i hdue hw hi
  rw [step_of_nextWord hdue hw, issue_of_decode hi]
  rfl

/-- Settles O44: no reset is due after the placing and the placed word is the next one, so the step issues it. -/
theorem placedWordIsTheNextCommand : Obligations.PlacedWordIsTheNextCommand := by
  intro s nbits w i h
  rw [step_of_nextWord (resetDue_withFetchWord s nbits w) (nextWord_withFetchWord s nbits w),
    issue_of_decode (decode_of_decodeTableWord h)]
  rfl

/-! ### Ill-formed states -/

theorem whenAccepting_of_reserved {s : State} (hq : s.sequencer = none) (hs : s.status = statusReserved) (r : Result) :
    whenAccepting s r = .refused .reservedStatus := by
  simp [whenAccepting, whenQuiet_of_quiet hq, hs, statusReserved, statusNone]

section
variable {s : State} {q : Sequencer} (hq : s.sequencer = some q)
include hq

theorem whenQuiet_of_running (r : Result) : whenQuiet s r = .refused .flushInProgress := by
  simp [whenQuiet, hq]

theorem whenAccepting_of_running (r : Result) : whenAccepting s r = .refused .flushInProgress :=
  whenQuiet_of_running hq _

theorem exec_of_running (i : Instr) : exec i s = .refused .flushInProgress :=
  (exec_eq i s).trans (whenAccepting_of_running hq _)

theorem issue_of_running (w : Word) : issue w s = .refused .flushInProgress := by
  unfold issue
  split
  · exact exec_of_running hq _
  · exact whenAccepting_of_running hq _

theorem step_of_running : step s = .refused .flushInProgress := by
  unfold step
  split
  · exact whenQuiet_of_running hq _
  · split
    · exact issue_of_running (s := advance s) hq _
    · exact whenQuiet_of_running hq _

end

/-- Settles O41: the guard of every command refuses the reserved status, and the guard of every move a running FLUSH. -/
theorem illFormedStatesAreRefused : Obligations.IllFormedStatesAreRefused :=
  ⟨fun s i hq hs => (exec_eq i s).trans (whenAccepting_of_reserved hq hs _),
    fun _ _ hq => ⟨exec_of_running hq, step_of_running hq⟩⟩

end Sys2Proof.Machine

/-! PROOFS. The frame buffer and its writers (20_memory.md R45, R47, R51): what each command writes of a cell, that writing again
changes nothing, and that no command but FLUSH, and no step but a FLUSH or a reset, touches the lines or the trace. -/

namespace Sys2Proof.Machine

/-! ### The mapper bit by bit -/

/-- A round puts its pattern bit at its offset, where no earlier round has put one. -/
theorem mapRound_getLsbD_same (p : Pattern) {out : Byte} (i : Nat) {offset : Nat} (hoffset : offset < 8)
    (hout : out.getLsbD offset = false) : (mapRound p out (i, offset)).getLsbD offset = p.getLsbD (6 - i) := by
  unfold mapRound
  split
  · next hbit => simp [hoffset, hbit]
  · next hbit => rw [hout]; simpa using hbit

/-- Among rounds of distinct offsets, each puts its pattern bit at its offset: the rounds before and after it leave that bit. -/
theorem foldl_mapRound_getLsbD_of_mem (p : Pattern) {rounds : List (Nat × Nat)} (hdistinct : rounds.Pairwise (·.2 ≠ ·.2))
    {i offset : Nat} (hmem : (i, offset) ∈ rounds) (hoffset : offset < 8) {out : Byte} (hout : out.getLsbD offset = false) :
    (rounds.foldl (mapRound p) out).getLsbD offset = p.getLsbD (6 - i) := by
  induction rounds generalizing out with
  | nil => cases hmem
  | cons r rounds ih =>
    obtain ⟨hr, hrounds⟩ := List.pairwise_cons.mp hdistinct
    rw [List.foldl_cons]
    rcases List.mem_cons.mp hmem with rfl | hlater
    · rw [foldl_mapRound_getLsbD_of_ne p rounds hr, mapRound_getLsbD_same p i hoffset hout]
    · refine ih hrounds hlater ?_
      rw [mapRound_getLsbD_of_ne p out (hr _ hlater).symm, hout]

/-- Physical bit `OFFSET[i]` is pattern bit `6 - i` (41_segment_mapper.md R110). -/
theorem map_getLsbD_offset (p : Pattern) {i offset : Nat} (hmem : (i, offset) ∈ List.zip [0, 1, 2, 3, 4, 5, 6] offsets) :
    (map p).getLsbD offset = p.getLsbD (6 - i) := by
  have hoffset : ∀ r ∈ List.zip [0, 1, 2, 3, 4, 5, 6] offsets, r.2 < 8 := by decide
  exact foldl_mapRound_getLsbD_of_mem p (by decide) hmem (hoffset _ hmem) BitVec.getLsbD_zero

/-- The seven bits of a mapped pattern one by one, from pattern bit 6 down to 0 (R110). -/
theorem map_bits (p : Pattern) :
    (map p).getLsbD 2 = p.getLsbD 6 ∧ (map p).getLsbD 0 = p.getLsbD 5 ∧ (map p).getLsbD 4 = p.getLsbD 4 ∧
      (map p).getLsbD 3 = p.getLsbD 3 ∧ (map p).getLsbD 1 = p.getLsbD 2 ∧ (map p).getLsbD 7 = p.getLsbD 1 ∧
      (map p).getLsbD 5 = p.getLsbD 0 :=
  ⟨map_getLsbD_offset p (i := 0) (by decide), map_getLsbD_offset p (i := 1) (by decide),
    map_getLsbD_offset p (i := 2) (by decide), map_getLsbD_offset p (i := 3) (by decide),
    map_getLsbD_offset p (i := 4) (by decide), map_getLsbD_offset p (i := 5) (by decide),
    map_getLsbD_offset p (i := 6) (by decide)⟩

/-- `MAP⁻¹` undoes `MAP` (R113): bit by bit, it reads the pattern bit where the mapper put it. -/
theorem unmap_map (p : Pattern) : unmap (map p) = p := by
  obtain ⟨h6, h5, h4, h3, h2, h1, h0⟩ := map_bits p
  refine BitVec.eq_of_getLsbD_eq fun k hk => ?_
  rw [unmap, h6, h5, h4, h3, h2, h1, h0]
  change BitVec.getLsbD (w := 1 + 1 + 1 + 1 + 1 + 1 + 1) _ k = _
  simp only [BitVec.getLsbD_append, BitVec.getLsbD_ofBool]
  interval_cases k <;> simp

/-! ### A store at a position -/

/-- A store at a legal position writes the whole cell of the position and keeps every other (42_framebuffer_commands.md R122). -/
theorem readCell_storeAtPosition {pos : Nat} (hpos : pos ≤ 11) (v : Byte) (s : State) (c : Fin 14) :
    readCell (storeAtPosition pos v s) c = if c.val = 12 - pos then v else readCell s c := by
  rw [storeAtPosition_legal hpos, readCell_writeCell]
  simp only [Fin.ext_iff]

/-- What a stored pattern leaves in the cells: in its own cell bit 6 clear, bit 7 as the mapper gives it and the pattern to be read
back, in every other cell what was there. -/
theorem storeAtPosition_map_bits {pos : Nat} (hpos : pos ≤ 11) (p : Pattern) (s : State) (c : Fin 14) :
    (c.val = 12 - pos →
      (readCell (storeAtPosition pos (map p) s) c).getLsbD 6 = false ∧
        (readCell (storeAtPosition pos (map p) s) c).getLsbD 7 = p.getLsbD 1 ∧
        unmap (readCell (storeAtPosition pos (map p) s) c) = p) ∧
      (c.val ≠ 12 - pos → readCell (storeAtPosition pos (map p) s) c = readCell s c) := by
  rw [readCell_storeAtPosition hpos]
  constructor <;> intro hc
  · rw [if_pos hc]
    exact ⟨map_bit6 p, map_getLsbD_offset p (i := 5) (by decide), unmap_map p⟩
  · rw [if_neg hc]

/-! ### The injection bit by bit -/

/-- The control mask is bits 7..3. -/
theorem ctrlMask_getLsbD {k : Nat} (hk : k < 8) : ctrlMask.getLsbD k = decide (3 ≤ k) := by
  revert k
  decide

/-- A control value replaces bits 2..0. -/
theorem withControl_getLsbD_low (ctrl v : Byte) {k : Nat} (hk : k < 3) :
    (withControl ctrl v).getLsbD k = ctrl.getLsbD k := by
  have hmask : ctrlMask.getLsbD k = false := by rw [ctrlMask_getLsbD (by omega)]; simpa using hk
  simp [withControl, hmask]

/-- The injection keeps bit 3 and every higher bit of every cell (43_flush_serial.md R141). -/
theorem injectFb_getLsbD_high (fb : FrameBuffer) (c : Fin 14) {k : Nat} (hk : 3 ≤ k) :
    (injectFb fb)[c.val].getLsbD k = fb[c.val].getLsbD k := by
  by_cases h8 : k < 8
  · have hmask : ctrlMask.getLsbD k = true := by rw [ctrlMask_getLsbD h8]; simpa using hk
    have hbit := congrArg (·.getLsbD k) (injectFb_masked fb c)
    simpa only [BitVec.getLsbD_and, hmask, Bool.and_true] using hbit
  · rw [BitVec.getLsbD_of_ge _ _ (by omega), BitVec.getLsbD_of_ge _ _ (by omega)]

theorem readCell_flushWith (o : HalfByteOrder) (s : State) (c : Fin 14) :
    readCell (flushWith o s) c = (injectFb s.fb)[c.val] := by
  rw [flushWith_eq, readCell_mk]

/-- Settles O18: each command answers its effect, and the effect's cells are all blank, a mapped pattern at one position, or the
injected cells.  That FLUSH leaves the control values in cells 6 and 13 is the spec's decision D8 (log entry 10). -/
theorem commandsWriteWholeCellsOrControlBits : Obligations.CommandsWriteWholeCellsOrControlBits := by
  intro s ha
  refine ⟨⟨_, exec_of_accepting ha _, readCell_blank s⟩,
    fun pos pat hpos => ⟨_, exec_of_accepting ha _, storeAtPosition_map_bits hpos pat s⟩,
    fun pos ch hpos => ⟨_, exec_of_accepting ha _, storeAtPosition_map_bits hpos (enc ch) s⟩,
    ⟨_, exec_of_accepting ha _, fun c k => ?_⟩⟩
  simp only [effect, readCell_flushWith]
  refine ⟨?_, ?_, ?_⟩
  · rintro rfl hk
    rw [injectFb_get]
    exact withControl_getLsbD_low ctrlA _ hk
  · rintro rfl hk
    rw [injectFb_get]
    exact withControl_getLsbD_low ctrlB _ hk
  · rintro (⟨h6, h13⟩ | hk)
    · rw [injectFb_get_other s.fb h6 h13]; rfl
    · exact injectFb_getLsbD_high s.fb c hk

/-! ### Writing again -/

theorem writeCell_idem (c : Fin 14) (v : Byte) (s : State) : writeCell c v (writeCell c v s) = writeCell c v s := by
  simp [writeCell]

/-- A command with a position, repeated, writes the same cell again or raises the same fault again. -/
theorem storeAtPosition_idem (pos : Nat) (v : Byte) (s : State) :
    storeAtPosition pos v (storeAtPosition pos v s) = storeAtPosition pos v s := by
  unfold storeAtPosition
  split
  · exact writeCell_idem _ v s
  · rfl

theorem effect_idem_of_ne_flush {i : Instr} (hi : i ≠ .flush) (s : State) : effect i (effect i s) = effect i s := by
  cases i with
  | erase => rfl
  | setp pos pat => exact storeAtPosition_idem pos (map pat) s
  | setc pos ch => exact storeAtPosition_idem pos (map (enc ch)) s
  | flush => exact absurd rfl hi

/-- Settles O19: a legal position leaves the block accepting, so the second command executes, and its effect is idempotent. -/
theorem frameBufferWritesAreIdempotent : Obligations.FrameBufferWritesAreIdempotent := by
  intro i s ha hlegal hi
  refine ⟨effect i s, exec_of_accepting ha i, ?_⟩
  rw [exec_of_accepting (accepting_effect ha hlegal), effect_idem_of_ne_flush hi]

/-! ### What an observer of the lines sees -/

/-- Of the four effects only that of FLUSH touches the lines or the trace. -/
theorem effect_keeps_lines_trace {i : Instr} (hi : i ≠ .flush) (s : State) :
    (effect i s).lines = s.lines ∧ (effect i s).trace = s.trace := by
  rcases effect_cases i s with ⟨-, e⟩ | ⟨c, v, -, e⟩ | ⟨-, e⟩ | ⟨hflush, -⟩
  case inr.inr.inr => exact absurd hflush hi
  all_goals rw [e]; exact ⟨rfl, rfl⟩

/-- Settles O30: the bursts are read from the trace, which every command but FLUSH keeps. -/
theorem changesBetweenFlushesAreLocal : Obligations.ChangesBetweenFlushesAreLocal := by
  intro i s t hexec hi
  obtain ⟨-, rfl⟩ := exec_next hexec
  obtain ⟨hlines, htrace⟩ := effect_keeps_lines_trace hi s
  exact ⟨hlines, htrace, congrArg bursts htrace⟩

/-- A word is its `op` field followed by its bits 11:0 (30_encoding.md R61, R62). -/
theorem opField_append_zField (w : Word) : opField w ++ zField w = w := by
  refine BitVec.eq_of_getLsbD_eq fun k hk => ?_
  rw [BitVec.getLsbD_append]
  by_cases hz : k < 12
  · simp [zField, hz]
  · simp [opField, hz, show k - 12 < 4 by omega, show 12 + (k - 12) = k by omega]

/-- The FLUSH word is the only word that decodes to FLUSH (30_encoding.md R66). -/
theorem eq_flushWord_of_decode {w : Word} (h : decode w = .ok .flush) : w = 0x4000 := by
  obtain ⟨hop, hz⟩ : opField w = 0x4#4 ∧ zField w = 0 := by
    unfold decode at h
    split_ifs at h with _ _ _ _ _ hop hz <;> cases h
    exact ⟨hop, hz⟩
  rw [← opField_append_zField w, hop, hz]
  rfl

/-- Settles O34, by the inversion of a step: with no reset due the block is idle, enters `IllegalCommand`, or runs the command its
next word decodes to, and of these only FLUSH touches the lines or the trace. -/
theorem stepTouchesLinesOnlyAtFlushOrReset : Obligations.StepTouchesLinesOnlyAtFlushOrReset := by
  intro s t hstep htouched
  obtain ⟨-, ⟨hdue, -⟩ | ⟨-, -, rfl⟩ | ⟨w, -, hw, -, ⟨i, hi, rfl⟩ | ⟨r, -, rfl⟩⟩⟩ := step_next hstep
  · exact .inr hdue
  · simp at htouched
  · by_cases hflush : i = .flush
    · subst hflush
      exact .inl (eq_flushWord_of_decode hi ▸ hw)
    · obtain ⟨hlines, htrace⟩ := effect_keeps_lines_trace hflush (advance s)
      simp [hlines, htrace] at htouched
  · simp at htouched

end Sys2Proof.Machine

/-! PROOFS. The decoder, the encoder and the opcode map (30_encoding.md R60 to R67): what a decoded word's fields are, that a word is
rebuilt from its fields, and that the two directions and the map agree. -/

namespace Sys2Proof

/-! ### A word rebuilt from its fields -/

theorem ofNat_posField (w : Word) : BitVec.ofNat 4 (posField w) = w.extractLsb' 8 4 := by
  rw [posField, BitVec.ofNat_toNat, BitVec.setWidth_eq]

/-- A word is its `op`, `pos` and `ch` fields, which leave no bit out (30_encoding.md R61, R64). -/
theorem formatC_fields (w : Word) : formatC (opField w) (posField w) (chField w) = w := by
  refine BitVec.eq_of_getLsbD_eq fun k hk => ?_
  rw [getLsbD_formatC]
  split_ifs with h8 h12
  · simp [chField, h8]
  · simp [ofNat_posField, show k - 8 < 4 by omega, show 8 + (k - 8) = k by omega]
  · simp [opField, show k - 12 < 4 by omega, show 12 + (k - 12) = k by omega]

/-- A format P word is the format C word of its pattern with bit 7 clear (30_encoding.md R63, R64). -/
theorem formatP_eq_formatC (op : BitVec 4) (pos : Nat) (pat : Pattern) :
    formatP op pos pat = formatC op pos (pat.setWidth 8) := by
  refine BitVec.eq_of_getLsbD_eq fun k _ => ?_
  rw [getLsbD_formatP, getLsbD_formatC, BitVec.getLsbD_setWidth]
  by_cases h8 : k < 8
  · by_cases h7 : k < 7
    · simp [h7, h8]
    · simp [h7, h8, show 7 ≤ k by omega]
  · simp [h8, show ¬ k < 7 by omega]

theorem patField_setWidth {w : Word} (h7 : w.getLsbD 7 = false) : (patField w).setWidth 8 = chField w := by
  refine BitVec.eq_of_getLsbD_eq fun k hk => ?_
  rcases Nat.lt_succ_iff_lt_or_eq.mp hk with hk7 | rfl
  · simp [patField, chField, hk, hk7]
  · simpa [patField, chField] using h7.symm

/-- A word with bit 7 clear is its `op`, `pos` and `pat` fields (30_encoding.md R63). -/
theorem formatP_fields {w : Word} (h7 : w.getLsbD 7 = false) : formatP (opField w) (posField w) (patField w) = w := by
  rw [formatP_eq_formatC, patField_setWidth h7, formatC_fields]

theorem posField_le (w : Word) : posField w ≤ 15 := by
  have := (w.extractLsb' 8 4).isLt
  unfold posField
  omega

/-! ### What the decoder answers -/

theorem decode_setp_of_fields {w : Word} (hop : opField w = 0x2#4) (h7 : w.getLsbD 7 = false) :
    decode w = .ok (.setp (posField w) (patField w)) := by
  rw [decode, hop, if_neg (by decide), if_pos rfl, if_pos h7]

theorem decode_setc_of_fields {w : Word} (hop : opField w = 0x3#4) : decode w = .ok (.setc (posField w) (chField w)) := by
  simp [decode, hop]

/-- Everything a word that decodes can be, with the fields it was read from (30_encoding.md R66). -/
theorem decode_ok_cases {w : Word} {i : Instr} (h : decode w = .ok i) :
    (i = .erase ∧ opField w = 0x1#4 ∧ zField w = 0) ∨
      (i = .setp (posField w) (patField w) ∧ opField w = 0x2#4 ∧ w.getLsbD 7 = false) ∨
      (i = .setc (posField w) (chField w) ∧ opField w = 0x3#4) ∨
      (i = .flush ∧ opField w = 0x4#4 ∧ zField w = 0) := by
  unfold decode at h
  split_ifs at h with h1 hz h2 h7 h3 h4 hz <;> cases h
  · exact .inl ⟨rfl, h1, hz⟩
  · exact .inr (.inl ⟨rfl, h2, h7⟩)
  · exact .inr (.inr (.inl ⟨rfl, h3⟩))
  · exact .inr (.inr (.inr ⟨rfl, h4, hz⟩))

/-- Settles O5: the fields of a command's word are its operands, and a well-formed position survives the 4-bit field. -/
theorem decodeOfEncodeIsIdentity : Obligations.DecodeOfEncodeIsIdentity := by
  intro i hwf
  cases i with
  | erase => rfl
  | setp pos pat =>
    obtain ⟨hop, hpos, hpat, h7⟩ := fields_formatP 0x2#4 pos pat
    have hle : pos ≤ 15 := posEncodable_iff.mp hwf
    rw [encode_setp, decode_setp_of_fields hop h7, hpos, hpat, Nat.mod_eq_of_lt (by omega)]
  | setc pos ch =>
    obtain ⟨hop, hpos, hch⟩ := fields_formatC 0x3#4 pos ch
    have hle : pos ≤ 15 := posEncodable_iff.mp hwf
    rw [encode_setc, decode_setc_of_fields hop, hpos, hch, Nat.mod_eq_of_lt (by omega)]
  | flush => rfl

/-- Settles O6: in each case of a decoded word the command's operands are the word's fields, and the fields make up the word. -/
theorem encodeOfDecodeIsIdentity : Obligations.EncodeOfDecodeIsIdentity := by
  intro w i h
  obtain ⟨rfl, hop, hz⟩ | ⟨rfl, hop, h7⟩ | ⟨rfl, hop⟩ | ⟨rfl, hop, hz⟩ := decode_ok_cases h
  · exact ⟨rfl, by rw [← Machine.opField_append_zField w, hop, hz]; rfl⟩
  · exact ⟨posEncodable_iff.mpr (posField_le w), by rw [encode_setp, ← hop, formatP_fields h7]⟩
  · exact ⟨posEncodable_iff.mpr (posField_le w), by rw [encode_setc, ← hop, formatC_fields]⟩
  · exact ⟨rfl, by rw [← Machine.opField_append_zField w, hop, hz]; rfl⟩

/-- Settles O4: the decoder run on each of the eleven words. -/
theorem specWordsDecodeAsWritten : Obligations.SpecWordsDecodeAsWritten :=
  ⟨rfl, rfl, rfl, rfl, rfl, rfl, rfl, rfl, rfl, rfl, rfl⟩

/-! ### The opcode map -/

theorem encode_selects_own_row (i : Instr) : Laws.EncodesOwnRow.Statement i := by
  cases i with
  | erase => exact Laws.EncodesOwnRow.erase
  | setp pos pat => exact Laws.EncodesOwnRow.setp pos pat
  | setc pos ch => exact Laws.EncodesOwnRow.setc pos ch
  | flush => exact Laws.EncodesOwnRow.flush

theorem opcodeRow_eq_of_mnemonic_eq :
    ∀ r ∈ opcodeTable, ∀ r' ∈ opcodeTable, r.mnemonic = r'.mnemonic → r = r' := by
  decide

/-- The word of a command selects the row of the command's mnemonic. -/
theorem selects_encode {r : OpcodeRow} (hr : r ∈ opcodeTable) {i : Instr} (hi : i.mnemonic = r.mnemonic) :
    r.selects (encode i) = true := by
  obtain ⟨r', hr', hname, hsel⟩ := encode_selects_own_row i
  rwa [opcodeRow_eq_of_mnemonic_eq r hr r' hr' (hi.symm.trans hname.symm)]

/-- Every mask keeps the `op` field, so a selected word has the row's. -/
theorem opField_of_selects {r : OpcodeRow} (hr : r ∈ opcodeTable) {w : Word} (h : r.selects w = true) :
    opField w = opField r.pattern := by
  have hmask : ∀ r ∈ opcodeTable, opField r.mask = BitVec.allOnes 4 := by decide
  calc opField w = opField w &&& opField r.mask := by rw [hmask r hr, BitVec.and_allOnes]
    _ = opField (w &&& r.mask) := BitVec.extractLsb'_and.symm
    _ = opField r.pattern := by rw [beq_iff_eq.mp h]

/-- A word that selects a row decodes to a command of the row's mnemonic. -/
theorem decode_of_selects {r : OpcodeRow} (hr : r ∈ opcodeTable) {w : Word} (h : r.selects w = true) :
    ∃ i, decode w = .ok i ∧ i.mnemonic = r.mnemonic := by
  have hop := opField_of_selects hr h
  have hmasked : w &&& r.mask = r.pattern := beq_iff_eq.mp h
  simp only [opcodeTable, List.mem_cons, List.not_mem_nil, or_false] at hr
  obtain rfl | rfl | rfl | rfl := hr
  · obtain rfl : w = 0x1000 := BitVec.and_allOnes.symm.trans hmasked
    exact ⟨.erase, rfl, rfl⟩
  · have h7 : w.getLsbD 7 = false := by simpa using congrArg (·.getLsbD 7) hmasked
    exact ⟨_, decode_setp_of_fields hop h7, rfl⟩
  · exact ⟨_, decode_setc_of_fields hop, rfl⟩
  · obtain rfl : w = 0x4000 := BitVec.and_allOnes.symm.trans hmasked
    exact ⟨.flush, rfl, rfl⟩

/-- Settles O7: a selected word decodes by its fields, and a word that decodes is the word of its command, which selects the
command's own row. -/
theorem decoderAgreesWithOpcodeMap : Obligations.DecoderAgreesWithOpcodeMap := by
  intro w r hr
  refine ⟨decode_of_selects hr, ?_⟩
  rintro ⟨i, hi, hname⟩
  obtain ⟨-, rfl⟩ := encodeOfDecodeIsIdentity w i hi
  exact selects_encode hr hname

/-! ### The illegal words -/

theorem toNat_opField (w : Word) : (opField w).toNat = w.toNat / 4096 := by
  have := w.isLt
  rw [opField, BitVec.extractLsb'_toNat, Nat.shiftRight_eq_div_pow]
  omega

theorem opField_eq_iff {w : Word} (op : BitVec 4) : opField w = op ↔ w.toNat / 4096 = op.toNat := by
  rw [BitVec.toNat_eq, toNat_opField]

theorem zField_eq_zero_iff {w : Word} : zField w = 0 ↔ w.toNat % 4096 = 0 := by
  rw [BitVec.toNat_eq, zField, BitVec.extractLsb'_toNat]
  simp

/-- The words the decoder rejects, by their fields: branch by branch, the tests of the decoder decide both sides
(30_encoding.md R67). -/
theorem decode_error_iff (w : Word) : (∃ r, decode w = .error r) ↔
    (opField w ≠ 0x1#4 ∧ opField w ≠ 0x2#4 ∧ opField w ≠ 0x3#4 ∧ opField w ≠ 0x4#4) ∨
      ((opField w = 0x1#4 ∨ opField w = 0x4#4) ∧ zField w ≠ 0) ∨ (opField w = 0x2#4 ∧ w.getLsbD 7 = true) := by
  unfold decode
  split_ifs <;> simp_all

/-- Settles O8: the rejected fields, with `op` and bits 11:0 read as the quotient and the remainder of the word by 4096. -/
theorem illegalWordsAreExactlyTheListed : Obligations.IllegalWordsAreExactlyTheListed := by
  intro w
  have hother : (w.toNat / 4096 ≠ 1 ∧ w.toNat / 4096 ≠ 2 ∧ w.toNat / 4096 ≠ 3 ∧ w.toNat / 4096 ≠ 4) ↔
      (w.toNat / 4096 = 0 ∨ 5 ≤ w.toNat / 4096) := by omega
  simp only [decode_error_iff, ne_eq, opField_eq_iff, zField_eq_zero_iff]
  exact or_congr_left hother

end Sys2Proof

/-! PROOFS. The assembler's words (30_encoding.md R70, R71, R72): the arithmetic of R70 is the encoder's, field by field. -/

namespace Sys2Proof.Machine

/-! ### A word as a number -/

/-- A format C word is its fields in base 16 and 256 (30_encoding.md R64). -/
theorem toNat_formatC (op : BitVec 4) (pos : Nat) (ch : Byte) :
    (formatC op pos ch).toNat = op.toNat * 4096 + pos % 16 * 256 + ch.toNat := by
  have hch := ch.isLt
  have hpos : (BitVec.ofNat 4 pos).toNat < 2 ^ 4 := (BitVec.ofNat 4 pos).isLt
  simp only [formatC, BitVec.toNat_append]
  rw [← Nat.shiftLeft_add_eq_or_of_lt hpos, ← Nat.shiftLeft_add_eq_or_of_lt hch, Nat.shiftLeft_eq, Nat.shiftLeft_eq,
    BitVec.toNat_ofNat]
  omega

theorem ofNat_setcWord {pos ch : Nat} (hpos : pos ≤ 15) (hch : ch ≤ 0xFF) :
    BitVec.ofNat 16 (0x3000 + pos * 256 + ch) = encode (.setc pos (BitVec.ofNat 8 ch)) := by
  apply BitVec.eq_of_toNat_eq
  simp only [encode_setc, toNat_formatC, BitVec.toNat_ofNat]
  omega

theorem ofNat_setpWord {pos pat : Nat} (hpos : pos ≤ 15) (hpat : pat ≤ 0x7F) :
    BitVec.ofNat 16 (0x2000 + pos * 256 + pat) = encode (.setp pos (BitVec.ofNat 7 pat)) := by
  apply BitVec.eq_of_toNat_eq
  simp only [encode_setp, formatP_eq_formatC, toNat_formatC, BitVec.toNat_setWidth, BitVec.toNat_ofNat]
  omega

/-! ### The lines of source -/

/-- A `ch` operand the assembler accepts is a byte value. -/
theorem CharOperand.value_le {c : CharOperand} (h : c.wellFormed = true) : c.value ≤ 0xFF := by
  cases c with
  | code n => exact of_decide_eq_true h
  | quoted c => exact (of_decide_eq_true h : c.toNat ≤ 0x7F).trans (by decide)

/-- The words of a WRITE are those of its SETC commands: no index of the first 12 bytes exceeds the position field (R71). -/
theorem writeWords_eq_encode {t : List CharOperand} (h : t.all CharOperand.wellFormed = true) :
    (writeWordValues t).map (BitVec.ofNat 16) = (writeInstrs (t.map fun c => BitVec.ofNat 8 c.value)).map encode := by
  rw [writeWordValues, writeInstrs, ← List.map_take, List.zipIdx_map, List.map_map, List.map_map, List.map_map]
  refine List.map_congr_left fun ck hck => ?_
  have hindex : ck.2 < (t.take maxText).length := by simpa using List.snd_lt_of_mem_zipIdx hck
  have hpos : ck.2 ≤ 15 := by
    have : (t.take maxText).length ≤ 12 := List.length_take_le maxText t
    omega
  have hchar : ck.1.wellFormed = true :=
    List.all_eq_true.mp h _ (List.mem_of_mem_take (List.fst_mem_of_mem_zipIdx hck))
  exact ofNat_setcWord hpos (CharOperand.value_le hchar)

/-- The words of a line the assembler accepts are the encodings of its commands. -/
theorem wordValues_eq_encode {l : AsmLine} (h : l.wellFormed = true) :
    l.wordValues.map (BitVec.ofNat 16) = l.instrs.map encode := by
  cases l with
  | erase => rfl
  | flush => rfl
  | setp pos pat =>
    obtain ⟨hpos, hpat⟩ := (Bool.and_eq_true _ _).mp h
    exact congrArg ([·]) (ofNat_setpWord (posEncodable_iff.mp hpos) (of_decide_eq_true hpat))
  | setc pos ch =>
    obtain ⟨hpos, hch⟩ := (Bool.and_eq_true _ _).mp h
    exact congrArg ([·]) (ofNat_setcWord (posEncodable_iff.mp hpos) (CharOperand.value_le hch))
  | write t => exact writeWords_eq_encode h
  | showText t =>
    simp only [AsmLine.wordValues, AsmLine.instrs, showInstrs, List.map_cons, List.map_append, writeWords_eq_encode h]
    rfl

/-- Settles O9: a line the assembler accepts gets the words of its commands, and it answers nothing for any other. -/
theorem assemblerWordsEncodeTheCommands : Obligations.AssemblerWordsEncodeTheCommands := by
  intro l
  unfold assemble
  split
  · next hwf => rw [wordValues_eq_encode hwf]
  · rfl

end Sys2Proof.Machine

/-! PROOFS. No command transfers control (30_encoding.md R69, 10_state.md R27): the host's words and position are nothing a command
reads or writes. -/

namespace Sys2Proof.Machine

/-- Two guarded outcomes of states with the same status and sequencer are of the same kind. -/
theorem sameOutcome_whenAccepting {r : State → State → Prop} {s s' t t' : State} (hstatus : s'.status = s.status)
    (hsequencer : s'.sequencer = s.sequencer) (h : r t t') :
    SameOutcome r (whenAccepting s (.next t)) (whenAccepting s' (.next t')) := by
  simp only [whenAccepting, whenQuiet, hstatus, hsequencer]
  split_ifs
  · rfl
  · exact h
  · rfl
  · rfl

/-- Settles O32: a command's guard reads the status and the sequencer only, its effect keeps whatever the host's list and position
are, and of the steps that answer a next state only an issued word moves the position. -/
theorem noCommandTransfersControl : Obligations.NoCommandTransfersControl := by
  refine ⟨fun i s pr n => ?_, fun s t hdue hw hstep => ?_, fun s t hdue hstep => ?_⟩
  · have heffect : effect i { s with program := pr, position := n } = { effect i s with program := pr, position := n } := by
      simpa using effect_host i s pr n s.resets
    rw [exec_eq, exec_eq]
    exact sameOutcome_whenAccepting rfl rfl ⟨effect_program i s, effect_position i s, heffect.symm⟩
  · obtain ⟨-, ⟨hdue', -⟩ | ⟨-, hw', -⟩ | ⟨w, -, -, -, ⟨i, -, rfl⟩ | ⟨r, -, rfl⟩⟩⟩ := step_next hstep
    · cases hdue.symm.trans hdue'
    · exact absurd hw' hw
    · simp
    · simp
  · obtain ⟨-, ⟨-, rfl⟩ | ⟨hdue', -⟩ | ⟨w, hdue', -⟩⟩ := step_next hstep
    · exact ⟨rfl, rfl⟩
    · cases hdue.symm.trans hdue'
    · cases hdue.symm.trans hdue'

end Sys2Proof.Machine

/-! PROOFS. WRITE and SHOW (30_encoding.md R71, R72): the text in the cells of its positions, and the bursts that carry it. -/

namespace Sys2Proof.Machine

/-! ### WRITE -/

/-- One more byte within the first 12 is one more SETC, at the position of its index (R71). -/
theorem writeInstrs_concat_of_lt {text : List Byte} (h : text.length < 12) (b : Byte) :
    writeInstrs (text ++ [b]) = writeInstrs text ++ [.setc text.length b] := by
  have hshort : text.length + 1 ≤ maxText := h
  rw [writeInstrs, writeInstrs, List.take_of_length_le (by simpa using hshort), List.take_of_length_le (by omega),
    List.zipIdx_append]
  simp

/-- A byte after the first 12 is dropped (R71). -/
theorem writeInstrs_concat_of_ge {text : List Byte} (h : 12 ≤ text.length) (b : Byte) :
    writeInstrs (text ++ [b]) = writeInstrs text := by
  have hfull : maxText ≤ text.length := h
  rw [writeInstrs, writeInstrs, List.take_append_of_le_length hfull]

@[simp] theorem writtenCell_nil (c : Fin 14) (old : Byte) : writtenCell [] c old = old := by
  simp [writtenCell]

/-- No text reaches cell 13 (10_state.md R22). -/
theorem writtenCell_thirteen (text : List Byte) (old : Byte) : writtenCell text 13 old = old := rfl

theorem getElem?_concat_of_ne {α : Type} {text : List α} (b : α) {k : Nat} (h : k ≠ text.length) :
    (text ++ [b])[k]? = text[k]? := by
  rcases Nat.lt_or_gt_of_ne h with hlt | hgt
  · exact List.getElem?_append_left hlt
  · rw [List.getElem?_eq_none hgt.le, List.getElem?_eq_none (by simpa using hgt)]

theorem writtenCell_concat_of_lt {text : List Byte} (h : text.length < 12) (b : Byte) (c : Fin 14) (old : Byte) :
    writtenCell (text ++ [b]) c old = if c.val = 12 - text.length then map (enc b) else writtenCell text c old := by
  unfold writtenCell
  by_cases hc : c.val = 12 - text.length
  · simp [hc, show 1 ≤ 12 - text.length by omega, show 12 - (12 - text.length) = text.length by omega]
  · by_cases hreached : 1 ≤ c.val ∧ c.val ≤ 12
    · have hne : 12 - c.val ≠ text.length := by omega
      rw [if_neg hc, if_pos hreached, if_pos hreached, getElem?_concat_of_ne b hne]
    · rw [if_neg hc, if_neg hreached, if_neg hreached]

theorem writtenCell_concat_of_ge {text : List Byte} (h : 12 ≤ text.length) (b : Byte) (c : Fin 14) (old : Byte) :
    writtenCell (text ++ [b]) c old = writtenCell text c old := by
  unfold writtenCell
  split
  · next hc => rw [List.getElem?_append_left (by omega)]
  · rfl

/-- WRITE, byte by byte from the first: each SETC adds the glyph of its byte to what the bytes before it left
(42_framebuffer_commands.md R124). -/
theorem execAll_writeInstrs (text : List Byte) {s : State} (ha : Accepting s) :
    ∃ t, execAll (writeInstrs text) s = .next t ∧ (∀ c : Fin 14, readCell t c = writtenCell text c (readCell s c)) ∧
      OnlyCellsChanged s t := by
  induction text using List.reverseRecOn with
  | nil => exact ⟨s, rfl, fun c => (writtenCell_nil c _).symm, rfl⟩
  | append_singleton text b ih =>
    obtain ⟨t, hexec, hcells, hframe⟩ := ih
    by_cases hlen : text.length < 12
    · have ht : Accepting t := by rw [hframe]; exact ha
      have hpos : text.length ≤ 11 := by omega
      refine ⟨storeAtPosition text.length (map (enc b)) t, ?_, fun c => ?_, ?_⟩
      · rw [writeInstrs_concat_of_lt hlen, execAll_append, hexec, andThen_next, execAll_cons_next (exec_of_accepting ht _)]
        rfl
      · rw [readCell_storeAtPosition hpos, writtenCell_concat_of_lt hlen, hcells]
      · rw [storeAtPosition_legal hpos, OnlyCellsChanged, hframe]
        rfl
    · rw [writeInstrs_concat_of_ge (by omega)]
      exact ⟨t, hexec, fun c => by rw [hcells, writtenCell_concat_of_ge (by omega)], hframe⟩

/-! ### The bursts of a FLUSH -/

/-- Whatever was read before, the receiver reads the two bursts of a FLUSH after it (43_flush_serial.md R150, R151). -/
theorem bursts_append_flushEvents (t : List Event) (o : HalfByteOrder) (fb : FrameBuffer) :
    bursts (t ++ flushEvents o fb) = bursts t ++ [halfBits o .a fb, halfBits o .b fb] := by
  simp [bursts, scanFrom_append, flushEvents, foldl_scanEvent_half]

/-! ### SHOW -/

/-- The injection into blank cells with the text written over them (30_encoding.md R72, 43_flush_serial.md R141). -/
theorem injectFb_written {text : List Byte} {fb : FrameBuffer} (h : ∀ c : Fin 14, fb[c.val] = writtenCell text c 0)
    (c : Fin 14) : (injectFb fb)[c.val] = shownCell text c := by
  rw [injectFb_get, h, shownCell]
  by_cases h6 : c = 6
  · subst h6; rfl
  · by_cases h13 : c = 13
    · subst h13
      rw [if_neg h6, if_pos rfl, if_neg h6, if_pos rfl, writtenCell_thirteen]
      rfl
    · simp only [if_neg h6, if_neg h13]

/-- Settles O51: ERASE blanks the cells, WRITE puts the text over them, and FLUSH injects the control values and sends the result. -/
theorem showSendsTheText : Obligations.ShowSendsTheText := by
  intro text s ha
  obtain ⟨t, hwrite, hcells, hframe⟩ := execAll_writeInstrs text (s := { s with fb := blankFb }) ha
  have ht : Accepting t := by rw [hframe]; exact ha
  have hwritten : ∀ c : Fin 14, t.fb[c.val] = writtenCell text c 0 := fun c => (hcells c).trans (by rw [readCell_blank])
  have hrun : execAll (showInstrs text) s = .next (effect .flush t) := by
    have herase : exec .erase s = .next { s with fb := blankFb } := exec_of_accepting ha .erase
    rw [showInstrs, List.cons_append, execAll_cons_next herase, execAll_append, hwrite, andThen_next,
      execAll_cons_next (exec_of_accepting ht .flush), execAll_nil]
  have horder : t.halfByteOrder = s.halfByteOrder := by rw [hframe]
  have htrace : t.trace = s.trace := by rw [hframe]
  refine ⟨_, hrun, fun c => ?_, accepting_effect ht rfl, ?_, ?_⟩
  · exact (readCell_flushWith _ t c).trans (injectFb_written hwritten c)
  · rw [effect, flushWith_eq]
  · simp only [effect, flushWith_eq, bursts_append_flushEvents, horder, htrace]

end Sys2Proof.Machine

/-! PROOFS. The encoder ROM (40_encoder_rom.md R100). -/

namespace Sys2Proof.Machine

theorem enc_of_le {a : Byte} (h : a.toNat ≤ 0x7E) : enc a = Config.encRom ⟨a.toNat, by omega⟩ := dif_pos h

theorem enc_of_gt {a : Byte} (h : 0x7E < a.toNat) : enc a = fallback := dif_neg h.not_ge

/-- Settles O10: an address of the ROM is one of a byte's 256 values, so the byte gives the address back; every other byte gets the
fallback. -/
theorem encReturnsEntryOrFallback : Obligations.EncReturnsEntryOrFallback := by
  refine ⟨fun k => ?_, fun a h => enc_of_gt h⟩
  have haddr : (BitVec.ofNat 8 k.val).toNat = k.val := Nat.mod_eq_of_lt (by omega)
  have hstored : (BitVec.ofNat 8 k.val).toNat ≤ 0x7E := by omega
  rw [enc_of_le hstored]
  exact congrArg Config.encRom (Fin.ext haddr)

end Sys2Proof.Machine

/-! PROOFS. The segment mapper (41_segment_mapper.md R110, R113): its bits, and the two directions of its bijection onto the bytes with
bit 6 clear. -/

namespace Sys2Proof.Machine

/-- Settles O11: the mapper puts pattern bit `6 - i` at `OFFSET[i]`, and 6 is no offset. -/
theorem mapSetsOffsetBits : Obligations.MapSetsOffsetBits := by
  intro p
  obtain ⟨h2, h0, h4, h3, h1, h7, h5⟩ := map_bits p
  exact ⟨h2, h0, h4, h3, h1, h7, h5, map_bit6 p, by decide, by decide, by decide⟩

/-- Pattern bit `6 - i` of `MAP⁻¹` is byte bit `OFFSET[i]` (R113), the mirror of `map_getLsbD_offset`. -/
theorem unmap_getLsbD_offset (b : Byte) {i offset : Nat} (hmem : (i, offset) ∈ List.zip [0, 1, 2, 3, 4, 5, 6] offsets) :
    (unmap b).getLsbD (6 - i) = b.getLsbD offset := by
  simp only [offsets, List.zip_cons_cons, List.zip_nil_left, List.mem_cons, Prod.mk.injEq, List.not_mem_nil, or_false] at hmem
  unfold unmap
  change BitVec.getLsbD (w := 1 + 1 + 1 + 1 + 1 + 1 + 1) _ _ = _
  simp only [BitVec.getLsbD_append, BitVec.getLsbD_ofBool]
  rcases hmem with ⟨rfl, rfl⟩ | ⟨rfl, rfl⟩ | ⟨rfl, rfl⟩ | ⟨rfl, rfl⟩ | ⟨rfl, rfl⟩ | ⟨rfl, rfl⟩ | ⟨rfl, rfl⟩ <;> simp

/-- The offsets are all the bits of a byte but bit 6. -/
theorem exists_mem_offsets_of_ne {k : Nat} (hk : k < 8) (h6 : k ≠ 6) :
    ∃ i, (i, k) ∈ List.zip [0, 1, 2, 3, 4, 5, 6] offsets := by
  have hall : ∀ j < 8, j ≠ 6 → ∃ r ∈ List.zip [0, 1, 2, 3, 4, 5, 6] offsets, r.2 = j := by decide
  obtain ⟨⟨i, _⟩, hr, rfl⟩ := hall k hk h6
  exact ⟨i, hr⟩

/-- `MAP` undoes `MAP⁻¹` on the bytes with bit 6 clear (R113): both sides have bit 6 clear, and every other bit is at an offset. -/
theorem map_unmap {b : Byte} (hb : b.getLsbD 6 = false) : map (unmap b) = b := by
  refine BitVec.eq_of_getLsbD_eq fun k hk => ?_
  by_cases h6 : k = 6
  · rw [h6, map_bit6, hb]
  · obtain ⟨i, hmem⟩ := exists_mem_offsets_of_ne hk h6
    rw [map_getLsbD_offset _ hmem, unmap_getLsbD_offset b hmem]

/-- A pattern is read back from its image, so equal images have equal patterns (R113). -/
theorem map_injective : Function.Injective map :=
  Function.LeftInverse.injective unmap_map

/-- Settles O12: `MAP⁻¹` is a left inverse, and a right inverse on the bytes with bit 6 clear. -/
theorem mapIsBijectiveOntoBit6Clear : Obligations.MapIsBijectiveOntoBit6Clear :=
  ⟨unmap_map, fun _ => map_unmap, fun _ _ => map_injective.eq_iff⟩

end Sys2Proof.Machine

/-! PROOFS. The frame-buffer commands and WRITE (42_framebuffer_commands.md R120 to R128): the words, cells and frames of ERASE, SETP
and SETC, the cells WRITE reaches, and why the order inside a WRITE is not observable. -/

namespace Sys2Proof.Machine

/-! ### Positions -/

theorem cellOf_injective {pos pos' : Nat} {c : Fin 14} (h : cellOf pos = some c) (h' : cellOf pos' = some c) : pos = pos' := by
  obtain ⟨hpos, hc⟩ := cellOf_eq_some.mp h
  obtain ⟨hpos', hc'⟩ := cellOf_eq_some.mp h'
  omega

/-- Settles O13: a legal position has the cell `12 - pos`, which is at least 7 exactly for the positions up to 5. -/
theorem positionsHaveDistinctCells : Obligations.PositionsHaveDistinctCells := by
  refine ⟨fun _ _ _ => cellOf_injective, fun pos hpos => ?_, fun pos hlow hhigh => ?_, fun _ => cellOf_illegal⟩
  · exact ⟨_, cellOf_legal (by omega), show 7 ≤ 12 - pos by omega, show 12 - pos ≤ 12 by omega⟩
  · exact ⟨_, cellOf_legal hhigh, show 1 ≤ 12 - pos by omega, show 12 - pos ≤ 6 by omega⟩

/-! ### The words -/

/-- A word that decodes has the fixed bits of its command's row (30_encoding.md R66). -/
theorem fixedBits_of_decode {w : Word} {i : Instr} (h : decode w = .ok i) {r : OpcodeRow} (hr : r ∈ opcodeTable)
    (hname : i.mnemonic = r.mnemonic) : w &&& r.mask = r.pattern :=
  beq_iff_eq.mp ((decoderAgreesWithOpcodeMap w r hr).mpr ⟨i, h, hname⟩)

theorem decode_setpWord {pos : Nat} (hpos : pos ≤ 15) (pat : Pattern) :
    decode (BitVec.ofNat 16 (0x2000 + pos * 256 + pat.toNat)) = .ok (.setp pos pat) := by
  have hpat : pat.toNat ≤ 0x7F := Nat.le_of_lt_succ pat.isLt
  rw [ofNat_setpWord hpos hpat, BitVec.ofNat_toNat, BitVec.setWidth_eq]
  exact decodeOfEncodeIsIdentity _ (posEncodable_iff.mpr hpos)

theorem decode_setcWord {pos : Nat} (hpos : pos ≤ 15) (ch : Byte) :
    decode (BitVec.ofNat 16 (0x3000 + pos * 256 + ch.toNat)) = .ok (.setc pos ch) := by
  have hch : ch.toNat ≤ 0xFF := Nat.le_of_lt_succ ch.isLt
  rw [ofNat_setcWord hpos hch, BitVec.ofNat_toNat, BitVec.setWidth_eq]
  exact decodeOfEncodeIsIdentity _ (posEncodable_iff.mpr hpos)

/-! ### ERASE -/

/-- No command but ERASE reaches cell 0 or bits 7..3 of cell 13 (10_state.md R22): a store writes the cell of a position, which is
neither, and the injection of a FLUSH keeps cell 0 and those bits. -/
theorem effect_keeps_unreached {i : Instr} (hi : i ≠ .erase) (s : State) :
    readCell (effect i s) 0 = readCell s 0 ∧ readCell (effect i s) 13 &&& ctrlMask = readCell s 13 &&& ctrlMask := by
  rcases effect_cases i s with ⟨herase, -⟩ | ⟨c, v, ⟨pos, hc, -⟩, e⟩ | ⟨-, e⟩ | ⟨-, e⟩
  case inl => exact absurd herase hi
  all_goals rw [e]
  · obtain ⟨h0, h13⟩ := cellOf_reaches hc
    rw [readCell_writeCell_other v s h0.symm, readCell_writeCell_other v s h13.symm]
    exact ⟨rfl, rfl⟩
  · exact ⟨rfl, rfl⟩
  · exact ⟨injectFb_get_other s.fb (by decide) (by decide), injectFb_masked s.fb 13⟩

/-- Settles O14: the word is the encoder's, ERASE leaves the blank cells, on which it has no effect, and the other commands keep the
cells and bits no position reaches. -/
theorem eraseClearsEveryCell : Obligations.EraseClearsEveryCell := by
  refine ⟨⟨rfl, fun w hw => (encodeOfDecodeIsIdentity w .erase hw).2.symm⟩, fun s ha => ?_, fun i s t hexec hi => ?_⟩
  · have hblank : Accepting { s with fb := blankFb } := ha
    exact ⟨_, exec_of_accepting ha .erase, readCell_blank s, rfl, exec_of_accepting hblank .erase⟩
  · obtain ⟨-, rfl⟩ := exec_next hexec
    exact effect_keeps_unreached hi s

/-! ### SETP and SETC -/

theorem onlyCellsChanged_storeAtPosition {pos : Nat} (hpos : pos ≤ 11) (v : Byte) (s : State) :
    OnlyCellsChanged s (storeAtPosition pos v s) := by
  rw [storeAtPosition_legal hpos]
  rfl

/-- A store at a position 12 or more is the entry of `PositionRange` (60_exceptions.md R201). -/
theorem onlyStatusChanged_storeAtPosition {pos : Nat} (hpos : 12 ≤ pos) (v : Byte) (s : State) :
    (storeAtPosition pos v s).status = 0b01 ∧ OnlyStatusChanged s (storeAtPosition pos v s) := by
  rw [storeAtPosition_illegal hpos]
  exact ⟨rfl, rfl⟩

/-- Settles O15: SETP is a store of the mapped pattern, and its words are those of its row of the opcode map. -/
theorem setpStoresMappedPattern : Obligations.SetpStoresMappedPattern := by
  refine ⟨fun s pos pat ha => ⟨fun hpos => ?_, fun hpos => ?_⟩, fun _ pat hpos => decode_setpWord hpos pat,
    fun w pos pat hw => ?_⟩
  · exact ⟨_, exec_of_accepting ha _, readCell_storeAtPosition hpos _ s, onlyCellsChanged_storeAtPosition hpos _ s⟩
  · exact ⟨_, exec_of_accepting ha _, onlyStatusChanged_storeAtPosition hpos _ s⟩
  · have hfixed : w &&& 0xF080 = 0x2000 :=
      fixedBits_of_decode hw (r := ⟨"SETP", 0x2000, 0xF080⟩) (by simp [opcodeTable]) rfl
    exact ⟨by simpa using congrArg (·.getLsbD 7) hfixed, hfixed⟩

/-- A character 0x7F or above is stored as 0x1E (41_segment_mapper.md R116). -/
theorem map_enc_of_gt {ch : Byte} (h : 0x7E < ch.toNat) : map (enc ch) = 0x1E := by
  rw [enc_of_gt h]
  decide

/-- Settles O16: SETC is a store of the mapped pattern of its character, as SETP of that pattern is. -/
theorem setcStoresEncodedCharacter : Obligations.SetcStoresEncodedCharacter := by
  refine ⟨fun s pos ch ha => ⟨rfl, fun hpos => ?_, fun hpos => ?_⟩, fun _ ch hpos => decode_setcWord hpos ch,
    fun w pos ch hw => ?_⟩
  · have hcells := readCell_storeAtPosition hpos (map (enc ch)) s
    refine ⟨_, exec_of_accepting ha _, hcells, onlyCellsChanged_storeAtPosition hpos _ s, fun hch c hc => ?_, fun c hc => ?_⟩
    · exact (hcells c).trans ((if_pos hc).trans (map_enc_of_gt hch))
    · exact ((storeAtPosition_map_bits hpos (enc ch) s c).1 hc).1
  · exact ⟨_, exec_of_accepting ha _, onlyStatusChanged_storeAtPosition hpos _ s⟩
  · exact fixedBits_of_decode hw (r := ⟨"SETC", 0x3000, 0xF000⟩) (by simp [opcodeTable]) rfl

/-! ### WRITE -/

/-- Settles O47: the induction over the text, byte by byte, is `execAll_writeInstrs`. -/
theorem writeStoresTheText : Obligations.WriteStoresTheText := fun text _ ha => execAll_writeInstrs text ha

/-- A text leaves cells 0 and 13 and the cells of the positions after its last byte. -/
theorem writtenCell_of_unreached {text : List Byte} {c : Fin 14} (h : c = 0 ∨ c = 13 ∨ text.length ≤ 12 - c.val) (old : Byte) :
    writtenCell text c old = old := by
  rcases h with rfl | rfl | hlen
  · rfl
  · exact writtenCell_thirteen text old
  · simp [writtenCell, List.getElem?_eq_none hlen]

/-- Settles O48: WRITE leaves the written cells, which outside the text's reach are the old ones; three bytes reach cells 12 to 10. -/
theorem writeDoesNotClear : Obligations.WriteDoesNotClear := by
  refine ⟨fun text s ha => ?_, fun s ha => ?_⟩
  · obtain ⟨t, hexec, hcells, -⟩ := execAll_writeInstrs text ha
    exact ⟨t, hexec, fun c hc => (hcells c).trans (writtenCell_of_unreached hc _)⟩
  · obtain ⟨t, hexec, hcells, -⟩ := execAll_writeInstrs [0x41, 0x42, 0x43] ha
    refine ⟨t, hexec, hcells 12, hcells 11, hcells 10, fun c hc => (hcells c).trans (writtenCell_of_unreached ?_ _)⟩
    rcases hc with hlow | h13
    · exact .inr (.inr (show 3 ≤ 12 - c.val by omega))
    · exact .inr (.inl h13)

/-- The expansion reads the first 12 bytes only (R126). -/
theorem writeInstrs_take (text : List Byte) : writeInstrs (text.take 12) = writeInstrs text := by
  simp [writeInstrs, maxText, List.take_take]

theorem writeInstrs_length (text : List Byte) : (writeInstrs text).length = min 12 text.length := by
  simp [writeInstrs, maxText]

/-- After a FLUSH the receiver has read two more bursts, those of the injected cells (43_flush_serial.md R151). -/
theorem bursts_flushWith (o : HalfByteOrder) (s : State) :
    bursts (flushWith o s).trace = bursts s.trace ++ [halfBits o .a (injectFb s.fb), halfBits o .b (injectFb s.fb)] := by
  rw [flushWith_eq, bursts_append_flushEvents]

/-- Settles O49: the expansion keeps 12 bytes, that of the empty text is no command, and a FLUSH sends two halves of 56 bits. -/
theorem writeTruncatesAndEmptyTextFlushes : Obligations.WriteTruncatesAndEmptyTextFlushes := by
  refine ⟨fun text hlen => ⟨(writeInstrs_take text).symm, ?_⟩, rfl, execAll_nil, fun s ha => ?_⟩
  · rw [writeInstrs_length, Nat.min_eq_left hlen.le]
  · have hrun : execAll (writeInstrs [] ++ [.flush]) s = .next (flushWith s.halfByteOrder s) :=
      execAll_cons_next (exec_of_accepting ha .flush)
    exact ⟨_, _, _, hrun, bursts_flushWith _ s, halfBits_length _ .a _, halfBits_length _ .b _⟩

/-! ### The order inside a WRITE -/

theorem writeCell_comm {c d : Fin 14} (h : c ≠ d) (v w : Byte) (s : State) :
    writeCell c v (writeCell d w s) = writeCell d w (writeCell c v s) := by
  have hfb : (s.fb.set d.val w).set c.val v = (s.fb.set c.val v).set d.val w :=
    Vector.set_comm w v fun e => h (Fin.ext e.symm)
  simp only [writeCell, hfb]

/-- Stores at two legal positions commute: their cells are distinct (R128). -/
theorem storeAtPosition_comm {pos pos' : Nat} (hpos : pos ≤ 11) (hpos' : pos' ≤ 11) (hne : pos ≠ pos') (v w : Byte) (s : State) :
    storeAtPosition pos v (storeAtPosition pos' w s) = storeAtPosition pos' w (storeAtPosition pos v s) := by
  simp only [storeAtPosition_legal hpos, storeAtPosition_legal hpos']
  refine writeCell_comm (fun e => hne ?_) v w s
  exact cellOf_injective (cellOf_legal hpos) (e ▸ cellOf_legal hpos')

/-- Every command of an expansion is the SETC of a byte at its index (30_encoding.md R71). -/
theorem mem_writeInstrs {i : Instr} {text : List Byte} (h : i ∈ writeInstrs text) :
    ∃ pos ch, i = .setc pos ch ∧ pos ≤ 11 ∧ text[pos]? = some ch := by
  obtain ⟨⟨ch, pos⟩, hmem, rfl⟩ := List.mem_map.mp h
  rw [List.mk_mem_zipIdx_iff_getElem?, List.getElem?_take, Option.ite_none_right_eq_some] at hmem
  obtain ⟨hpos, hch⟩ := hmem
  exact ⟨pos, ch, rfl, Nat.le_of_lt_succ hpos, hch⟩

theorem legalPosition_of_mem_writeInstrs {i : Instr} {text : List Byte} (h : i ∈ writeInstrs text) : i.legalPosition = true := by
  obtain ⟨pos, ch, rfl, hpos, -⟩ := mem_writeInstrs h
  exact decide_eq_true hpos

/-- Two commands of one expansion commute: at the same position they are the same command. -/
theorem effect_comm_of_mem_writeInstrs {text : List Byte} {i j : Instr} (hi : i ∈ writeInstrs text) (hj : j ∈ writeInstrs text)
    (s : State) : effect j (effect i s) = effect i (effect j s) := by
  obtain ⟨pos, ch, rfl, hpos, hch⟩ := mem_writeInstrs hi
  obtain ⟨pos', ch', rfl, hpos', hch'⟩ := mem_writeInstrs hj
  by_cases hne : pos' = pos
  · subst hne
    obtain rfl : ch' = ch := Option.some.inj (hch'.symm.trans hch)
    rfl
  · exact storeAtPosition_comm hpos' hpos hne _ _ s

/-- Commands at legal positions all execute, one effect after another. -/
theorem execAll_of_legalPosition {l : List Instr} (hlegal : ∀ i ∈ l, i.legalPosition = true) {s : State} (ha : Accepting s) :
    execAll l s = .next (l.foldl (fun u i => effect i u) s) := by
  induction l generalizing s with
  | nil => rfl
  | cons i l ih =>
    obtain ⟨hi, hl⟩ := List.forall_mem_cons.mp hlegal
    rw [execAll_cons_next (exec_of_accepting ha i), ih hl (accepting_effect ha hi)]
    rfl

/-- Settles O50: every command of an expansion executes, whatever comes before it, and any two of them commute. -/
theorem writeOrderIsNotObservable : Obligations.WriteOrderIsNotObservable := by
  intro text l s ha hperm
  have hlegal : ∀ i ∈ l, i.legalPosition = true := fun i hi => legalPosition_of_mem_writeInstrs (hperm.mem_iff.mp hi)
  refine ⟨_, execAll_of_legalPosition hlegal ha, ?_⟩
  rw [execAll_of_legalPosition (fun _ => legalPosition_of_mem_writeInstrs) ha]
  exact congrArg _ (hperm.symm.foldl_eq' (fun _ hi _ hj => effect_comm_of_mem_writeInstrs hi hj) s)

end Sys2Proof.Machine

/-! PROOFS. FLUSH and the serial protocol (43_flush_serial.md R140 to R155): what a FLUSH leaves, its events one by one, and the
numbers a receiver reads from them. -/

namespace Sys2Proof.Machine

/-! ### What a FLUSH leaves -/

theorem flushWith_fb (o : HalfByteOrder) (s : State) : (flushWith o s).fb = injectFb s.fb := by rw [flushWith_eq]

theorem flushWith_trace (o : HalfByteOrder) (s : State) :
    (flushWith o s).trace = s.trace ++ flushEvents o (injectFb s.fb) := by rw [flushWith_eq]

theorem flushWith_halfByteOrder (o : HalfByteOrder) (s : State) : (flushWith o s).halfByteOrder = s.halfByteOrder := by
  rw [flushWith_eq]

theorem exec_flush {s : State} (ha : Accepting s) : exec .flush s = .next (flushWith s.halfByteOrder s) :=
  exec_of_accepting ha .flush

theorem accepting_flush {s : State} (ha : Accepting s) : Accepting (flushWith s.halfByteOrder s) :=
  accepting_effect ha (i := .flush) rfl

theorem halfBits_events_length (o : HalfByteOrder) (h : Half) (fb : FrameBuffer) :
    ((halfBits o h fb).flatMap bitEvents).length = 168 := by rw [bits_length, halfBits_length]

theorem halfEvents_length (o : HalfByteOrder) (h : Half) (fb : FrameBuffer) : (halfEvents o h fb).length = 173 := by
  rw [halfEvents, List.length_append, List.length_append, halfBits_events_length]
  rfl

theorem flushEvents_length (o : HalfByteOrder) (fb : FrameBuffer) : (flushEvents o fb).length = 346 := by
  rw [flushEvents, List.length_append, halfEvents_length, halfEvents_length]

/-- Settles O20: the cells are the injected ones, and the rest is what `flushWith_eq` lists; the sequencer was idle before. -/
theorem flushInjectsAndSends : Obligations.FlushInjectsAndSends := by
  intro s ha
  refine ⟨_, exec_flush ha, fun c => ?_, ?_⟩
  · rw [readCell_flushWith, injectFb_get]
    split
    · next h6 => subst h6; rfl
    · split
      · next h13 => subst h13; rfl
      · rfl
  · rw [flushWith_eq]
    exact ⟨rfl, List.prefix_append _ _, by rw [List.length_append, flushEvents_length], by rw [ha.2]⟩

/-! ### The events one by one -/

/-- In a concatenation of pieces of length `k`, piece `n` starts at `k * n`. -/
theorem take_drop_flatMap {α β : Type} {f : α → List β} {k : Nat} (hf : ∀ a, (f a).length = k) (l : List α) {n : Nat}
    (hn : n < l.length) : ((l.flatMap f).drop (k * n)).take k = f l[n] := by
  induction l generalizing n with
  | nil => cases hn
  | cons a l ih =>
    rw [List.flatMap_cons]
    cases n with
    | zero => exact List.take_left' (hf a)
    | succ n =>
      rw [Nat.mul_succ, Nat.add_comm, ← List.drop_drop, List.drop_left' (hf a)]
      exact ih (Nat.lt_of_succ_lt_succ hn)

/-- Entry `r` of piece `n`. -/
theorem getElem?_flatMap {α β : Type} {f : α → List β} {k : Nat} (hf : ∀ a, (f a).length = k) {l : List α} {n : Nat}
    (hn : n < l.length) {r : Nat} (hr : r < k) : (l.flatMap f)[k * n + r]? = (f l[n])[r]? := by
  rw [← take_drop_flatMap hf l hn, List.getElem?_take_of_lt hr, List.getElem?_drop]

/-- The 8 bits a burst carries for the cell in place `j` of the order (20_memory.md R42). -/
theorem halfBits_cell (o : HalfByteOrder) (h : Half) (fb : FrameBuffer) (j : Fin 7) :
    ((halfBits o h fb).drop (8 * j.val)).take 8 = cellBits fb[(order o h)[j.val].val] := by
  rw [halfBits, take_drop_flatMap (fun _ => cellBits_length _) _ (by simp)]
  simp

/-- Bit `8 * j + k` of a burst is bit `7 - k` of the cell in place `j` (20_memory.md R41, R42). -/
theorem halfBits_getElem? (o : HalfByteOrder) (h : Half) (fb : FrameBuffer) (j : Fin 7) (k : Fin 8) :
    (halfBits o h fb)[8 * j.val + k.val]? = some (fb[(order o h)[j.val].val].getLsbD (7 - k.val)) := by
  have hcell : ∀ v : Byte, (cellBits v)[k.val]? = some (v.getLsbD (7 - k.val)) := fun v => by fin_cases k <;> rfl
  rw [← List.getElem?_drop, ← List.getElem?_take_of_lt k.isLt, halfBits_cell, hcell]

/-- Steps 1 and 3 of a burst (43_flush_serial.md R143, R145). -/
theorem halfEvents_frame (o : HalfByteOrder) (h : Half) (fb : FrameBuffer) :
    (halfEvents o h fb)[0]? = some (.clk, false) ∧ (halfEvents o h fb)[1]? = some (.dat, false) ∧
      (halfEvents o h fb)[2]? = some (.ce, true) ∧ (halfEvents o h fb)[171]? = some (.dat, false) ∧
      (halfEvents o h fb)[172]? = some (.ce, false) := by
  simp [halfEvents, halfBits_events_length, -List.length_flatMap]

/-- Between them stand the events of the bits (R144). -/
theorem halfEvents_inside (o : HalfByteOrder) (h : Half) (fb : FrameBuffer) {n : Nat} (hn : n < 168) :
    (halfEvents o h fb)[3 + n]? = ((halfBits o h fb).flatMap bitEvents)[n]? := by
  rw [halfEvents, List.append_assoc, List.getElem?_append_right (by simp), List.getElem?_append_left]
  · congr 1
    exact Nat.add_sub_cancel_left 3 n
  · rw [halfBits_events_length]
    simpa using hn

/-- Step 2 of a burst (R144): three events for bit `k` of the cell in place `j`. -/
theorem halfEvents_bit (o : HalfByteOrder) (h : Half) (fb : FrameBuffer) (j : Fin 7) (k : Fin 8) {r : Nat} (hr : r < 3) :
    (halfEvents o h fb)[3 + (3 * (8 * j.val + k.val) + r)]? =
      (bitEvents (fb[(order o h)[j.val].val].getLsbD (7 - k.val)))[r]? := by
  obtain ⟨hplace, hbit⟩ := List.getElem?_eq_some_iff.mp (halfBits_getElem? o h fb j k)
  rw [halfEvents_inside o h fb (by omega), getElem?_flatMap (k := 3) (fun _ => rfl) hplace hr, hbit]

/-- The event a half's burst starts at. -/
def burstStart : Half → Nat
  | .a => 0
  | .b => 173

theorem flushEvents_getElem? (o : HalfByteOrder) (h : Half) (fb : FrameBuffer) {n : Nat} (hn : n < 173) :
    (flushEvents o fb)[burstStart h + n]? = (halfEvents o h fb)[n]? := by
  have hlen := halfEvents_length o .a fb
  cases h with
  | a => rw [burstStart, Nat.zero_add, flushEvents, List.getElem?_append_left (by omega)]
  | b => rw [burstStart, flushEvents, List.getElem?_append_right (by omega), hlen, Nat.add_sub_cancel_left]

theorem flushEvents_bit (o : HalfByteOrder) (h : Half) (fb : FrameBuffer) (j : Fin 7) (k : Fin 8) {r : Nat} (hr : r < 3) :
    (flushEvents o fb)[burstStart h + (3 + r) + 24 * j.val + 3 * k.val]? =
      (bitEvents (fb[(order o h)[j.val].val].getLsbD (7 - k.val)))[r]? := by
  rw [← halfEvents_bit o h fb j k hr, ← flushEvents_getElem? o h fb (by omega)]
  congr 1
  omega

/-- Settles O21: each event of a FLUSH is the event at its place in its half's burst. -/
theorem flushDrivesEventsInOrder : Obligations.FlushDrivesEventsInOrder := by
  refine ⟨fun s ha => exec_flush ha, fun o s => ⟨_, flushWith_trace o s, flushEvents_length o _, ?_⟩⟩
  intro h base cell
  have hbase : base = burstStart h := by cases h <;> rfl
  have hcell : ∀ j : Fin 7, cell j = (order o h)[j.val] := by cases o <;> cases h <;> decide
  obtain ⟨hclk, hdat, hce, hdat', hce'⟩ := halfEvents_frame o h (injectFb s.fb)
  have hevent {n : Nat} (hn : n < 173) := flushEvents_getElem? o h (injectFb s.fb) hn
  rw [hbase]
  refine ⟨(hevent (by omega)).trans hclk, (hevent (by omega)).trans hdat, (hevent (by omega)).trans hce, fun j k => ?_,
    (hevent (by omega)).trans hdat', (hevent (by omega)).trans hce'⟩
  have hbit {r : Nat} (hr : r < 3) := flushEvents_bit o h (injectFb s.fb) j k hr
  rw [readCell_flushWith, hcell]
  exact ⟨hbit (r := 0) (by omega), hbit (r := 1) (by omega), hbit (r := 2) (by omega)⟩

/-! ### How often a line is driven -/

/-- Each bit has one rising edge of CLK (43_flush_serial.md R144). -/
theorem count_clk_bits (bs : List Level) : (bs.flatMap bitEvents).count (.clk, true) = bs.length := by
  induction bs with
  | nil => rfl
  | cons b bs ih => simp [bitEvents, ih]

/-- No bit drives CE. -/
theorem count_ce_bits (bs : List Level) (b : Level) : (bs.flatMap bitEvents).count (.ce, b) = 0 := by
  simp [List.count_eq_zero, bitEvents]

theorem halfEvents_counts (o : HalfByteOrder) (h : Half) (fb : FrameBuffer) :
    (halfEvents o h fb).count (.clk, true) = 56 ∧ (halfEvents o h fb).count (.ce, true) = 1 ∧
      (halfEvents o h fb).count (.ce, false) = 1 := by
  simp [halfEvents, count_clk_bits, count_ce_bits, halfBits_length]

/-- Settles O23: each of the two bursts has 56 rising edges of CLK, one of CE and one falling edge of CE. -/
theorem flushEventCounts : Obligations.FlushEventCounts := by
  intro o s
  obtain ⟨hclkA, hopenA, hcloseA⟩ := halfEvents_counts o .a (injectFb s.fb)
  obtain ⟨hclkB, hopenB, hcloseB⟩ := halfEvents_counts o .b (injectFb s.fb)
  refine ⟨_, flushWith_trace o s, flushEvents_length o _, ?_, ?_, ?_⟩
  · rw [flushEvents, List.count_append, hclkA, hclkB]
  · rw [flushEvents, List.count_append, hopenA, hopenB]
  · rw [flushEvents, List.count_append, hcloseA, hcloseB]

/-! ### The numbers a receiver reads -/

/-- The bits of a number, most significant first. -/
def msbFirst {w : Nat} (v : BitVec w) : List Level := (List.range w).map v.getMsbD

theorem msbFirst_getElem? {w n : Nat} (v : BitVec w) (hn : n < w) : (msbFirst v)[n]? = some (v.getMsbD n) := by
  simp [msbFirst, hn]

theorem msbFirst_append {v w : Nat} (x : BitVec v) (y : BitVec w) : msbFirst (x ++ y) = msbFirst x ++ msbFirst y := by
  rw [msbFirst, List.range_add, List.map_append, List.map_map]
  congr 1
  · refine List.map_congr_left fun n hn => ?_
    rw [BitVec.getMsbD_append, if_neg (Nat.not_le.mpr (List.mem_range.mp hn))]
  · refine List.map_congr_left fun n _ => ?_
    rw [Function.comp_apply, BitVec.getMsbD_append, if_pos (Nat.le_add_right v n), Nat.add_sub_cancel_left]

theorem cellBits_eq_msbFirst (v : Byte) : cellBits v = msbFirst v := rfl

/-- The cells of a half as one 56-bit number, the first cell sent on top (43_flush_serial.md R151). -/
def halfNumber : HalfByteOrder → Half → FrameBuffer → BitVec 56
  | .descending, .a, fb => fb[6] ++ fb[5] ++ fb[4] ++ fb[3] ++ fb[2] ++ fb[1] ++ fb[0]
  | .descending, .b, fb => fb[13] ++ fb[12] ++ fb[11] ++ fb[10] ++ fb[9] ++ fb[8] ++ fb[7]
  | .ascending, .a, fb => fb[0] ++ fb[1] ++ fb[2] ++ fb[3] ++ fb[4] ++ fb[5] ++ fb[6]
  | .ascending, .b, fb => fb[7] ++ fb[8] ++ fb[9] ++ fb[10] ++ fb[11] ++ fb[12] ++ fb[13]

/-- A burst is its half's number, most significant bit first (R151). -/
theorem halfBits_eq_msbFirst (o : HalfByteOrder) (h : Half) (fb : FrameBuffer) :
    halfBits o h fb = msbFirst (halfNumber o h fb) := by
  have hseven : ∀ c0 c1 c2 c3 c4 c5 c6 : Byte,
      msbFirst (w := 8 + 8 + 8 + 8 + 8 + 8 + 8) (c0 ++ c1 ++ c2 ++ c3 ++ c4 ++ c5 ++ c6) =
        [c0, c1, c2, c3, c4, c5, c6].flatMap cellBits := by
    intros
    simp only [msbFirst_append, cellBits_eq_msbFirst, List.flatMap_cons, List.flatMap_nil, List.append_nil, List.append_assoc]
  cases o <;> cases h <;> exact (hseven _ _ _ _ _ _ _).symm

theorem halfBits_getMsbD (o : HalfByteOrder) (h : Half) (fb : FrameBuffer) {n : Nat} (hn : n < 56) :
    (halfBits o h fb)[n]? = some ((halfNumber o h fb).getMsbD n) := by
  rw [halfBits_eq_msbFirst, msbFirst_getElem? _ hn]

/-- Settles O22: the two bursts read after a FLUSH are the numbers of its halves, for the cells it leaves. -/
theorem flushContributesTwoBursts : Obligations.FlushContributesTwoBursts := by
  intro s ha
  refine ⟨_, _, _, exec_flush ha, bursts_flushWith _ s, halfBits_length _ .a _, halfBits_length _ .b _,
    fun horder n hn => ?_, fun horder n hn => ?_⟩
  · rw [horder, ← flushWith_fb]
    exact ⟨halfBits_getMsbD .descending .a _ hn, halfBits_getMsbD .descending .b _ hn⟩
  · rw [horder, ← flushWith_fb]
    exact ⟨halfBits_getMsbD .ascending .a _ hn, halfBits_getMsbD .ascending .b _ hn⟩

/-- The injection into blank cells leaves the control values alone (R152). -/
theorem injectFb_blank (c : Fin 14) : (injectFb blankFb)[c.val] = if c = 6 then 0x04 else if c = 13 then 0x01 else 0x00 := by
  have hblank : blankFb[c.val] = 0 := by simp [blankFb]
  rw [injectFb_get, hblank]
  rfl

/-- The numbers of the halves of these cells, for both cell orders (R152). -/
theorem halfNumber_blank :
    halfNumber .descending .a (injectFb blankFb) = 0x04000000000000 ∧
      halfNumber .descending .b (injectFb blankFb) = 0x01000000000000 ∧
      halfNumber .ascending .a (injectFb blankFb) = 0x04 ∧ halfNumber .ascending .b (injectFb blankFb) = 0x01 := by
  decide

/-- Settles O28: ERASE leaves blank cells, and a FLUSH of those sends the numbers of the injected blank cells. -/
theorem eraseThenFlushSendsOnlyControlBits : Obligations.EraseThenFlushSendsOnlyControlBits := by
  intro s ha
  have herased : exec .erase s = .next { s with fb := blankFb } := exec_of_accepting ha .erase
  have ht : Accepting { s with fb := blankFb } := ha
  refine ⟨_, _, herased, exec_flush ht, fun c => ?_, ?_⟩
  · exact (readCell_flushWith _ _ c).trans (injectFb_blank c)
  · obtain ⟨hda, hdb, haa, hab⟩ := halfNumber_blank
    rw [bursts_flushWith, halfBits_eq_msbFirst, halfBits_eq_msbFirst]
    cases s.halfByteOrder with
    | descending => rw [hda, hdb]; rfl
    | ascending => rw [haa, hab]; rfl

/-! ### What the events depend on -/

/-- The injection forgets bits 2..0 of the two control cells and nothing else. -/
theorem injectFb_congr {f g : FrameBuffer} (hcells : ∀ c : Fin 14, c ≠ 6 → c ≠ 13 → f[c.val] = g[c.val])
    (h6 : f[6] &&& ctrlMask = g[6] &&& ctrlMask) (h13 : f[13] &&& ctrlMask = g[13] &&& ctrlMask) : injectFb f = injectFb g := by
  refine frameBuffer_ext fun c => ?_
  rw [injectFb_get, injectFb_get]
  split
  · next hc => subst hc; exact congrArg (· ||| ctrlA) h6
  · next hc6 =>
    split
    · next hc => subst hc; exact congrArg (· ||| ctrlB) h13
    · next hc13 => exact hcells c hc6 hc13

/-- Settles O25: the appended events are those of the injected cells, and the two states agree on these. -/
theorem flushEventsDependOnlyOnCells : Obligations.FlushEventsDependOnlyOnCells := by
  intro s t hs ht horder hcells h6 h13
  have hinjected : injectFb s.fb = injectFb t.fb := injectFb_congr hcells h6 h13
  refine ⟨_, _, _, exec_flush hs, exec_flush ht, flushWith_trace _ s, ?_⟩
  rw [flushWith_trace, horder, hinjected]

/-- Settles O26: the second injection changes nothing, so the second FLUSH sends the same cells. -/
theorem secondFlushRepeatsTheFirst : Obligations.SecondFlushRepeatsTheFirst := by
  intro s ha
  have hcells : injectFb (flushWith s.halfByteOrder s).fb = injectFb s.fb := by rw [flushWith_fb, injectFb_idem]
  refine ⟨_, _, _, exec_flush ha, exec_flush (accepting_flush ha), ?_, flushWith_trace _ s, ?_⟩
  · rw [flushWith_fb, hcells, flushWith_fb]
  · rw [flushWith_trace, hcells, flushWith_halfByteOrder]

/-! ### The glyph at position 6 -/

section
variable {fb : FrameBuffer} {pat : Pattern} (hglyph : fb[6] = map pat)
include hglyph

/-- A mapped pattern in cell 6 after the injection, bits 2..0 and then bits 7..3 (43_flush_serial.md R153). -/
theorem injectFb_glyph_bits :
    (injectFb fb)[6].getLsbD 2 = true ∧ (injectFb fb)[6].getLsbD 1 = false ∧ (injectFb fb)[6].getLsbD 0 = false ∧
      (injectFb fb)[6].getLsbD 7 = pat.getLsbD 1 ∧ (injectFb fb)[6].getLsbD 6 = false ∧
      (injectFb fb)[6].getLsbD 5 = pat.getLsbD 0 ∧ (injectFb fb)[6].getLsbD 4 = pat.getLsbD 4 ∧
      (injectFb fb)[6].getLsbD 3 = pat.getLsbD 3 := by
  obtain ⟨-, -, h4, h3, -, h7, h5⟩ := map_bits pat
  have hinjected : (injectFb fb)[6] = withControl ctrlA fb[6] := injectFb_get fb 6
  have hlow {k : Nat} (hk : k < 3) : (injectFb fb)[6].getLsbD k = ctrlA.getLsbD k := by
    rw [hinjected, withControl_getLsbD_low ctrlA _ hk]
  have hhigh {k : Nat} (hk : 3 ≤ k) : (injectFb fb)[6].getLsbD k = (map pat).getLsbD k := by
    rw [← hglyph]
    exact injectFb_getLsbD_high fb 6 hk
  exact ⟨hlow (by decide), hlow (by decide), hlow (by decide), (hhigh (by decide)).trans h7,
    (hhigh (by decide)).trans (map_bit6 pat), (hhigh (by decide)).trans h5, (hhigh (by decide)).trans h4,
    (hhigh (by decide)).trans h3⟩

theorem cellBits_injectFb_glyph :
    cellBits (injectFb fb)[6] =
      [pat.getLsbD 1, false, pat.getLsbD 0, pat.getLsbD 4, pat.getLsbD 3, true, false, false] := by
  obtain ⟨h2, h1, h0, h7, h6, h5, h4, h3⟩ := injectFb_glyph_bits hglyph
  change [(injectFb fb)[6].getLsbD 7, (injectFb fb)[6].getLsbD 6, (injectFb fb)[6].getLsbD 5, (injectFb fb)[6].getLsbD 4,
    (injectFb fb)[6].getLsbD 3, (injectFb fb)[6].getLsbD 2, (injectFb fb)[6].getLsbD 1, (injectFb fb)[6].getLsbD 0] = _
  rw [h7, h6, h5, h4, h3, h2, h1, h0]

end

/-- Settles O27: cell 6, which comes first or last in burst A, is sent with the injected bits of the stored glyph. -/
theorem position6GlyphIsOverloaded : Obligations.Position6GlyphIsOverloaded := by
  intro s pat ha
  have hstored : exec (.setp 6 pat) s = .next (writeCell 6 (map pat) s) := exec_of_accepting ha _
  have ht : Accepting (writeCell 6 (map pat) s) := ha
  have hglyph : readCell (writeCell 6 (map pat) s) 6 = map pat := readCell_writeCell_same 6 _ s
  refine ⟨_, _, _, _, hstored, exec_flush ht, hglyph, bursts_flushWith _ _, ?_, ?_⟩
  · rw [← cellBits_injectFb_glyph hglyph, writeCell_halfByteOrder]
    cases s.halfByteOrder with
    | descending => exact halfBits_cell .descending .a _ 0
    | ascending => exact halfBits_cell .ascending .a _ 6
  · rw [readCell_flushWith]
    exact injectFb_glyph_bits hglyph

/-! ### The lines -/

theorem storeAtPosition_of_lines (pos : Nat) (v : Byte) (s : State) (ls : LineLevels) :
    storeAtPosition pos v { s with lines := ls } = { storeAtPosition pos v s with lines := ls } := by
  unfold storeAtPosition
  split <;> rfl

/-- A command's effect depends on no line: a FLUSH drives all three, and every other command keeps them. -/
theorem effect_lines (i : Instr) (s : State) (ls : LineLevels) :
    { effect i s with lines := (effect i { s with lines := ls }).lines } = effect i { s with lines := ls } := by
  cases i with
  | erase => rfl
  | flush => simp only [effect, flushWith_eq]
  | setp pos pat => simp only [effect, storeAtPosition_of_lines]
  | setc pos ch => simp only [effect, storeAtPosition_of_lines]

/-- Settles O31: the guard of a command reads the status and the sequencer, and its effect no line. -/
theorem noCommandReadsTheLines : Obligations.NoCommandReadsTheLines := by
  intro i s ls
  rw [exec_eq, exec_eq]
  exact sameOutcome_whenAccepting rfl rfl (effect_lines i s ls)

/-! ### The copy reading of the injection -/

/-- Outcomes of the same kind stay so under continuations that answer related states alike. -/
theorem SameOutcome.andThen {r r' : State → State → Prop} {a b : Result} {k k' : State → Result} (h : SameOutcome r a b)
    (hk : ∀ s t, r s t → SameOutcome r' (k s) (k' t)) : SameOutcome r' (andThen a k) (andThen b k') := by
  cases a <;> cases b
  case next.next s t => exact hk s t h
  case fault.fault => exact h
  case refused.refused => exact h
  all_goals exact False.elim h

/-- The next state of a command under the copy reading: FLUSH keeps the cells (43_flush_serial.md R155). -/
def effectCopy : Instr → State → State
  | .flush, s => flushCopyWith s.halfByteOrder s
  | i, s => effect i s

theorem execCopy_eq (i : Instr) (s : State) : execCopy i s = whenAccepting s (.next (effectCopy i s)) := by cases i <;> rfl

/-- Writing the same cell keeps two frame buffers equal but for the control bits. -/
theorem injectFb_set_congr {f g : FrameBuffer} (h : injectFb f = injectFb g) (c : Fin 14) (v : Byte) :
    injectFb (f.set c.val v) = injectFb (g.set c.val v) := by
  refine frameBuffer_ext fun d => ?_
  have hd : (injectFb f)[d.val] = (injectFb g)[d.val] := by rw [h]
  rw [injectFb_get, injectFb_get] at hd ⊢
  by_cases hc : c.val = d.val
  · simp only [hc, Vector.getElem_set_self]
  · simpa only [Vector.getElem_set_ne _ _ hc] using hd

theorem sameButControl_storeAtPosition {s t : State} (h : SameButControl s t) (pos : Nat) (v : Byte) :
    SameButControl (storeAtPosition pos v s) (storeAtPosition pos v t) := by
  obtain ⟨hcells, hframe⟩ := h
  rw [← hframe]
  unfold storeAtPosition
  split
  · exact ⟨injectFb_set_congr hcells _ v, rfl⟩
  · exact ⟨hcells, rfl⟩

theorem flushCopyWith_fb (o : HalfByteOrder) (s : State) : (flushCopyWith o s).fb = s.fb := by simp only [flushCopyWith]

/-- A FLUSH sends the injected cells under both readings, and the cells it leaves inject to the same. -/
theorem sameButControl_flush {s t : State} (h : SameButControl s t) :
    SameButControl (flushWith s.halfByteOrder s) (flushCopyWith t.halfByteOrder t) := by
  obtain ⟨hcells, hframe⟩ := h
  rw [← hframe]
  refine ⟨?_, ?_⟩
  · rw [flushWith_fb, injectFb_idem, flushCopyWith_fb, hcells]
  · simp only [flushCopyWith, flushWith_eq, hcells]

theorem sameButControl_effect {s t : State} (h : SameButControl s t) (i : Instr) :
    SameButControl (effect i s) (effectCopy i t) := by
  cases i with
  | erase => exact ⟨rfl, by rw [← h.2]; rfl⟩
  | setp pos pat => exact sameButControl_storeAtPosition h pos _
  | setc pos ch => exact sameButControl_storeAtPosition h pos _
  | flush => exact sameButControl_flush h

theorem issueCopy_of_decode {w : Word} {i : Instr} (h : decode w = .ok i) (s : State) : issueCopy w s = execCopy i s := by
  rw [issueCopy, h]

theorem issue_of_reject {w : Word} {r : Reject} (h : decode w = .error r) (s : State) : issue w s = execIllegal s := by
  rw [issue, h]

theorem issueCopy_of_reject {w : Word} {r : Reject} (h : decode w = .error r) (s : State) : issueCopy w s = execIllegal s := by
  rw [issueCopy, h]

/-- Related states answer a word alike: they have the same guard, and the command's two effects are related. -/
theorem sameOutcome_issue (w : Word) {s t : State} (h : SameButControl s t) :
    SameOutcome SameButControl (issue w s) (issueCopy w t) := by
  have hstatus : t.status = s.status := by rw [← h.2]
  have hsequencer : t.sequencer = s.sequencer := by rw [← h.2]
  cases hw : decode w with
  | ok i =>
    rw [issue_of_decode hw, issueCopy_of_decode hw, exec_eq, execCopy_eq]
    exact sameOutcome_whenAccepting hstatus hsequencer (sameButControl_effect h i)
  | error r =>
    have hfault : SameButControl (raiseFault .illegalCommand s) (raiseFault .illegalCommand t) :=
      ⟨h.1, by rw [← h.2]; rfl⟩
    rw [issue_of_reject hw, issueCopy_of_reject hw]
    exact sameOutcome_whenAccepting hstatus hsequencer hfault

/-- A list of words keeps the relation, since each word does; and related states differ in the cells only. -/
theorem sameOutcome_issueAll (ws : List Word) {s t : State} (h : SameButControl s t) :
    SameOutcome (fun t u => SameButControl t u ∧ t.trace = u.trace ∧ t.lines = u.lines ∧ t.status = u.status)
      (issueAll ws s) (issueAllCopy ws t) := by
  induction ws generalizing s t with
  | nil => exact ⟨h, by rw [← h.2], by rw [← h.2], by rw [← h.2]⟩
  | cons w ws ih => exact (sameOutcome_issue w h).andThen fun _ _ => ih

/-- Settles O29: the relation is kept word by word, and every state is related to itself. -/
theorem inPlaceAndCopyInjectionAreIndistinguishable : Obligations.InPlaceAndCopyInjectionAreIndistinguishable :=
  ⟨fun w _ _ h => sameOutcome_issue w h, fun ws _ => sameOutcome_issueAll ws ⟨rfl, rfl⟩⟩

end Sys2Proof.Machine

/-! PROOFS. Exceptions (60_exceptions.md R201 to R209, R215): which commands and words fault, what the entry of a fault changes, and
what a faulted or an idle block does in a step. -/

namespace Sys2Proof.Machine

/-! ### The entry of a fault -/

theorem onlyStatusChanged_raiseFault (kind : FaultKind) (s : State) : OnlyStatusChanged s (raiseFault kind s) := rfl

theorem exec_of_illegalPosition {s : State} (ha : Accepting s) {i : Instr} (hi : i.legalPosition = false) :
    exec i s = .next (raiseFault .positionRange s) := by
  rw [exec_of_accepting ha, effect_illegal hi]

theorem issue_of_reject_accepting {s : State} (ha : Accepting s) {w : Word} {r : Reject} (hw : decode w = .error r) :
    issue w s = .next (raiseFault .illegalCommand s) := by
  rw [issue_of_reject hw, execIllegal, whenAccepting_of_accepting ha]

/-- Settles O33: an accepting block runs every command, a legal position keeps it accepting, an illegal one is the entry of
`PositionRange`, and WRITE changes nothing but cells. -/
theorem onlyPositionRangeFaultsACommand : Obligations.OnlyPositionRangeFaultsACommand := by
  refine fun s ha => ⟨fun i => ⟨effect i s, exec_of_accepting ha i, fun hlegal => ?_, fun hillegal => ?_⟩, fun text => ?_⟩
  · exact (accepting_effect ha hlegal).1
  · rw [effect_illegal hillegal]
    exact ⟨rfl, onlyStatusChanged_raiseFault .positionRange s⟩
  · obtain ⟨t, hexec, -, hframe⟩ := execAll_writeInstrs text ha
    have hstatus : t.status = s.status := by rw [hframe]
    exact ⟨t, hexec, hstatus.trans ha.1⟩

/-- Settles O36: the effect of both commands is the same entry of `PositionRange`. -/
theorem positionFaultEntryIsPrecise : Obligations.PositionFaultEntryIsPrecise := by
  intro s pos pat ch ha hpos
  have hillegal : decide (pos ≤ 11) = false := decide_eq_false (Nat.not_le_of_lt hpos)
  exact ⟨_, exec_of_illegalPosition ha (i := .setp pos pat) hillegal, exec_of_illegalPosition ha (i := .setc pos ch) hillegal,
    rfl, onlyStatusChanged_raiseFault _ s, faulted_raiseFault _ ha.2⟩

/-- Settles O37: whatever the reason of the rejection, the word is answered by the entry of `IllegalCommand`. -/
theorem illegalWordFaultEntryIsPrecise : Obligations.IllegalWordFaultEntryIsPrecise := by
  intro s w r ha hw
  exact ⟨_, issue_of_reject_accepting ha hw, rfl, onlyStatusChanged_raiseFault _ s, faulted_raiseFault _ ha.2⟩

/-! ### A faulted block -/

theorem exec_of_faulted {s : State} (hf : Faulted s) (i : Instr) : exec i s = .fault .stuck :=
  (exec_eq i s).trans (whenAccepting_of_faulted hf _)

theorem issue_of_faulted {s : State} (hf : Faulted s) (w : Word) : issue w s = .fault .stuck := by
  cases hw : decode w with
  | ok i => rw [issue_of_decode hw, exec_of_faulted hf]
  | error r => rw [issue_of_reject hw, execIllegal, whenAccepting_of_faulted hf]

/-- Settles O38: a word, decoded or not, is stuck as every command is, and a step with no reset due issues the next word. -/
theorem faultedBlockHasNoStep : Obligations.FaultedBlockHasNoStep := by
  refine fun s hf => ⟨exec_of_faulted hf, issue_of_faulted hf, fun hdue hword => ?_⟩
  obtain ⟨w, hw⟩ := Option.ne_none_iff_exists'.mp hword
  rw [step_of_nextWord hdue hw]
  exact issue_of_faulted ((faulted_advance s).mpr hf) w

/-- Settles O39, by the inversion of a step: a reset, an idle step, or an issued word, which only an accepting block answers with
a next state. -/
theorem onlyResetLeavesTheFault : Obligations.OnlyResetLeavesTheFault := by
  intro s t hf hstep
  obtain ⟨-, ⟨hdue, rfl⟩ | ⟨hdue, hword, rfl⟩ | ⟨w, -, -, ha, -⟩⟩ := step_next hstep
  · exact .inr ⟨hdue, accepting_resetBlock s⟩
  · exact .inl ⟨hdue, hword, rfl⟩
  · exact absurd ha (not_accepting_of_faulted hf)

/-! ### An idle block -/

theorem nextWord_eq_none_iff {s : State} : nextWord s = none ↔ s.program.length ≤ s.position := List.getElem?_eq_none_iff

theorem step_of_no_word {s : State} (hdue : resetDue s = false) (hword : nextWord s = none) : step s = idle s := by
  simp [step, hdue, hword]

/-- Settles O43: past the end of the host's list there is no next word, and an idle step of a quiet block keeps the state. -/
theorem stepWithoutMoveIsIdle : Obligations.StepWithoutMoveIsIdle := by
  intro s hquiet hdue hend
  rw [step_of_no_word hdue (nextWord_eq_none_iff.mpr hend), idle, whenQuiet_of_quiet hquiet]

end Sys2Proof.Machine

/-! PROOFS. Reset and hazards (70_reset_and_hazards.md R220, R228, R231, R232): the order of the drives, the reset event, and when a
run of the host's list ends well. -/

namespace Sys2Proof.Machine

/-! ### The order of the drives -/

/-- Settles O24: the events of a FLUSH are two bursts, and a burst keeps the order rule from any levels. -/
theorem flushKeepsDriveOrder : Obligations.FlushKeepsDriveOrder := by
  refine fun o s => ⟨_, flushWith_trace o s, fun ls => ?_⟩
  rw [flushEvents, traceInOrder_append, traceInOrder_half, traceInOrder_half]
  rfl

/-! ### The reset event -/

theorem step_of_resetDue {s : State} (hquiet : s.sequencer = none) (hdue : resetDue s = true) :
    step s = .next { resetBlock s with resets := s.resets.tail } := by
  rw [step, if_pos hdue, takeReset, whenQuiet_of_quiet hquiet]

/-- Settles O40: the reset that is due is taken, and what it leaves of the block is `FB_INIT` and `LINES_INIT`. -/
theorem resetEventClearsTheBlock : Obligations.ResetEventClearsTheBlock := by
  intro s n later hquiet hresets hn
  have hdue : resetDue s = true := resetDue_iff.mpr ⟨n, later, hresets, hn⟩
  exact ⟨_, step_of_resetDue hquiet hdue, rfl, rfl, rfl, initialFb_get, fun l => by cases l <;> rfl, rfl, rfl, rfl,
    by rw [hresets]; rfl⟩

/-! ### Runs that end well -/

/-- A run of no step ended well exactly when the block accepts and the list is at its end. -/
theorem runEndedWell_zero {s t : State} : RunEndedWell s 0 t ↔ s = t ∧ s.position = s.program.length ∧ Accepting s := by
  constructor
  · rintro ⟨hrun, hend, haccepting, -⟩
    injection hrun with hrun
    subst hrun
    exact ⟨rfl, hend, haccepting⟩
  · rintro ⟨rfl, hend, haccepting⟩
    exact ⟨rfl, hend, haccepting, fun hfaults => not_accepting_of_faulted ((runFaults_zero s).mp hfaults) haccepting⟩

/-- A run with a faulted state did not end well, however far it went on after that state. -/
theorem not_runEndedWell_of_run_faulted {s u t : State} {j k : Nat} (hrun : Host.Core.run core j s = .next u) (hu : Faulted u)
    (hj : j ≤ k) : ¬ RunEndedWell s k t :=
  fun ⟨_, _, _, hnoFault⟩ => hnoFault ⟨j, hj, u, hrun, hu⟩

/-- With no reset to come, an accepting block runs the next command of a legal position. -/
theorem step_of_legalCommand {s : State} (ha : Accepting s) (hresets : s.resets = []) {i : Instr} (hi : i.legalPosition = true)
    (hw : nextWord s = some (encode i)) : step s = .next (effect i (advance s)) := by
  have hdecode : decode (encode i) = .ok i := decodeOfEncodeIsIdentity i (wellFormed_of_legalPosition hi)
  rw [step_of_nextWord (resetDue_nil hresets) hw, issue_of_decode hdecode,
    exec_of_accepting ((accepting_advance s).mpr ha)]

theorem effect_withPosition (i : Instr) (s : State) (n : Nat) :
    effect i { s with position := n } = { effect i s with position := n } := by
  simpa using effect_host i s s.program n s.resets

/-- The effects of a list of commands do not depend on the host's position, and keep it. -/
theorem foldl_effect_withPosition (is : List Instr) (s : State) (n : Nat) :
    is.foldl (fun u i => effect i u) { s with position := n } = { is.foldl (fun u i => effect i u) s with position := n } := by
  induction is generalizing s with
  | nil => rfl
  | cons i is ih => rw [List.foldl_cons, effect_withPosition, ih, List.foldl_cons]

/-- From the middle of the host's list, with only commands of legal positions left, the run ends well after as many steps, in the
state of the commands' effects one after another with the position at the end of the list. -/
theorem runEndedWell_of_legalCommands {is : List Instr} (hlegal : ∀ i ∈ is, i.legalPosition = true) {s : State}
    (ha : Accepting s) (hresets : s.resets = []) {issued : List Word} (hprogram : s.program = issued ++ is.map encode)
    (hposition : s.position = issued.length) :
    RunEndedWell s is.length { is.foldl (fun u i => effect i u) s with position := s.program.length } := by
  induction is generalizing s issued with
  | nil =>
    have hend : s.position = s.program.length := by rw [hposition, hprogram, List.map_nil, List.append_nil]
    exact runEndedWell_zero.mpr ⟨by rw [← hend]; rfl, hend, ha⟩
  | cons i is ih =>
    obtain ⟨hi, his⟩ := List.forall_mem_cons.mp hlegal
    have hword : nextWord s = some (encode i) := by simp [nextWord, hprogram, hposition]
    have hrest := ih his (accepting_effect ((accepting_advance s).mpr ha) hi) (by simpa using hresets)
      (issued := issued ++ [encode i]) (by simpa using hprogram) (by simpa using hposition)
    have hadvance : effect i (advance s) = { effect i s with position := s.position + 1 } := effect_withPosition i s _
    refine runEndedWell_succ.mpr ⟨_, step_of_legalCommand ha hresets hi hword, fun hf => not_accepting_of_faulted hf ha, ?_⟩
    rw [hadvance, foldl_effect_withPosition] at hrest
    simpa [hadvance] using hrest

/-- Settles O45: nothing is issued yet, and the effects of the commands one after another, which the position does not enter, are
their sequential execution. -/
theorem legalCommandListEndsWell : Obligations.LegalCommandListEndsWell := by
  intro is s hlegal ha hresets hprogram hposition
  refine ⟨_, runEndedWell_of_legalCommands hlegal ha hresets (issued := []) hprogram hposition, ?_⟩
  have hstart : { s with position := 0 } = s := by rw [← hposition]
  rw [execAll_of_legalPosition hlegal ha, ← foldl_effect_withPosition, hstart]

/-! ### Runs that fault -/

/-- A word that raises a fault when it is issued is still to be issued. -/
def FaultPending (s : State) : Prop := ∃ n w, s.position ≤ n ∧ s.program[n]? = some w ∧ FaultingWord w

/-- An accepting block answers a faulting word with the entry of a fault, `IllegalCommand` or `PositionRange`. -/
theorem issue_faultingWord {w : Word} (hw : FaultingWord w) {s : State} (ha : Accepting s) :
    ∃ kind, issue w s = .next (raiseFault kind s) := by
  obtain ⟨r, hr⟩ | ⟨i, hi, hillegal⟩ := hw
  · exact ⟨_, issue_of_reject_accepting ha hr⟩
  · exact ⟨_, (issue_of_decode hi s).trans (exec_of_illegalPosition ha hillegal)⟩

theorem faulted_of_issue_faultingWord {w : Word} (hw : FaultingWord w) {s t : State} (h : issue w s = .next t) : Faulted t := by
  obtain ⟨ha, -⟩ := issue_next h
  obtain ⟨kind, hentry⟩ := issue_faultingWord hw ha
  obtain rfl : raiseFault kind s = t := by rw [hentry] at h; injection h
  exact faulted_raiseFault kind ha.2

/-- A step does not get past a pending fault: a reset and an idle step issue nothing, and an issued word is either an earlier one or
the faulting one itself. -/
theorem faultPending_step {s u : State} (hpending : FaultPending s) (hstep : step s = .next u) : FaultPending u ∨ Faulted u := by
  obtain ⟨n, w, hn, hw, hfaulting⟩ := hpending
  obtain ⟨-, ⟨-, rfl⟩ | ⟨-, -, rfl⟩ | ⟨v, hdue, hv, -⟩⟩ := step_next hstep
  · exact .inl ⟨n, w, hn, hw, hfaulting⟩
  · exact .inl ⟨n, w, hn, hw, hfaulting⟩
  · obtain rfl | hlater := hn.eq_or_lt
    · exact .inr (faulted_of_issue_faultingWord hfaulting (step_of_nextWord hdue hw ▸ hstep))
    · obtain ⟨-, hissued, -⟩ := noCommandTransfersControl
      obtain ⟨hprogram, hposition⟩ := hissued s u hdue (by simp [hv]) hstep
      exact .inl ⟨n, w, by omega, by rw [hprogram]; exact hw, hfaulting⟩

/-- With a fault pending the list is not at its end, and each step leaves it pending or enters it. -/
theorem not_runEndedWell_of_faultPending {s : State} (hpending : FaultPending s) (k : Nat) (t : State) :
    ¬ RunEndedWell s k t := by
  induction k generalizing s with
  | zero =>
    intro hwell
    obtain ⟨-, hend, -⟩ := runEndedWell_zero.mp hwell
    obtain ⟨n, w, hn, hw, -⟩ := hpending
    obtain ⟨hlt, -⟩ := List.getElem?_eq_some_iff.mp hw
    omega
  | succ k ih =>
    intro hwell
    obtain ⟨u, hstep, -, hrest⟩ := runEndedWell_succ.mp hwell
    obtain hu | hu := faultPending_step hpending hstep
    · exact ih hu hrest
    · exact not_runEndedWell_of_run_faulted (j := 0) rfl hu (Nat.zero_le k) hrest

/-- Settles O46: a faulting word still to be issued is a pending fault, and a run with a faulted state did not end well. -/
theorem faultedRunNeverEndsWell : Obligations.FaultedRunNeverEndsWell :=
  ⟨fun _ n w hn hw hfaulting => not_runEndedWell_of_faultPending ⟨n, w, hn, hw, hfaulting⟩,
    fun _ _ _ _ hrun hu hj _ => not_runEndedWell_of_run_faulted hrun hu hj⟩

end Sys2Proof.Machine
